-- ==== Sys2Proof/Word.lean ====
section
/-! DEFINITION. Word types of the unit and the two bit notations of the spec (00_scope.md R14, R15).

Registers and array elements are 32 bits (R14), bfloat16 and float16 patterns 16, block codes 8. -/

namespace Sys2Proof

/-- A host-visible register, an array element, a float32 pattern or a command word (R14). -/
abbrev Word := BitVec 32

/-- A bfloat16 or float16 pattern (R15). -/
abbrev Half := BitVec 16

/-- One stored block code (10_state.md R46). -/
abbrev Byte := BitVec 8

/-- `v[hi:lo]`: the unsigned integer formed by bits `hi` down to `lo` of `v`, inclusive (R15). -/
def bits {w : Nat} (v : BitVec w) (hi lo : Nat) : Nat := v.toNat / 2 ^ lo % 2 ^ (hi + 1 - lo)

/-- `v[i]` applied to a value: bit `i` of `v` (R15). -/
def bit {w : Nat} (v : BitVec w) (i : Nat) : Bool := v.getLsbD i

end Sys2Proof
end

