-- ==== Sys2Proof/Config.lean ====
section
/-! DEFINITION. The implementation parameters of 00_scope.md §4 and the free values (draws) of the model.

The parameters are one structure. `Config.reference` has the spec's reference values. A state carries its
configuration (assumption log 1), so every statement about a state is a statement for every configuration.
The free values are constants without a body: nothing can compute or prove a value of one (93 Part 1, `any value`). -/

namespace Sys2Proof

/-- `QROUND_TIES`, the tie rule of the quantizer's integer rounding (R13, R20). -/
inductive Ties where
  /-- `AWAY`: a tie goes to the integer farther from zero (the reference value). -/
  | away
  /-- `EVEN`: a tie goes to the even integer. -/
  | even
  deriving DecidableEq, Repr, Inhabited

/-- A block's KIND (10_state.md R43). -/
inductive BlockKind where
  /-- KIND = 0: 8-bit signed codes. -/
  | q8
  /-- KIND = 1: 4-bit unsigned codes, one per byte. -/
  | q4
  deriving DecidableEq, Repr, Inhabited

/-- The parameters of 00_scope.md §4 (R11 to R13). -/
structure Config where
  /-- `FFC_BASE`, the byte address of the register window in the host's address space (R60). -/
  ffcBase : Nat
  /-- `N_MAX`, the capacity of IN, OUT and each slot's code buffer, in elements (R11). -/
  nMax : Nat
  /-- `NUM_SLOTS`, the number of block slots (R12). -/
  numSlots : Nat
  /-- `Q4_CODE_MAX`, the Q4 code_range and largest Q4 code (R182). -/
  q4CodeMax : Nat
  /-- `Q8_CODE_MIN`, the smallest Q8 code (R185). -/
  q8CodeMin : Int
  /-- `QROUND_TIES` (R20). -/
  qroundTies : Ties
  /-- `FP16_NAN_FILL`, a 10-bit float16 mantissa (R153). -/
  fp16NanFill : BitVec 10
  /-- `DEFAULT_NAN`, a float32 pattern (R190). -/
  defaultNan : Word
  deriving DecidableEq, Repr

/-- The legal ranges of the parameter table (00_scope.md §4, R11, R12). `ffcBase` is 8 MiB-aligned (R60). -/
abbrev Config.Legal (c : Config) : Prop :=
  c.ffcBase % 2 ^ 23 = 0 ∧
  (1 ≤ c.nMax ∧ c.nMax ≤ 2 ^ 18) ∧
  (1 ≤ c.numSlots ∧ c.numSlots ≤ 16) ∧
  (c.q4CodeMax = 15 ∨ c.q4CodeMax = 255) ∧
  (c.q8CodeMin = -128 ∨ c.q8CodeMin = -127) ∧
  c.fp16NanFill ≠ 0 ∧
  (bits c.defaultNan 30 23 = 255 ∧ bits c.defaultNan 22 0 ≠ 0)

/-- The reference values of 00_scope.md §4. `FFC_BASE` is OPEN there; 0 is the model's choice
(DESIGN CHOICE, log 2: only the reset state's configuration uses it). -/
def Config.reference : Config where
  ffcBase := 0
  nMax := 4096
  numSlots := 4
  q4CodeMax := 15
  q8CodeMin := -128
  qroundTies := .away
  fp16NanFill := 0x001
  defaultNan := 0x7FC00000

/-- Free value: the word with index `i` of the array whose unspecified contents were drawn under tag `t`
(IN and OUT at reset: R39, R40, R252, U8), or, at index 0, the BLEN of a slot that is not live (R44, U9). -/
opaque Config.freeWord (t i : Nat) : Word

/-- Free value: KIND of a slot that is not live (R43, U9). -/
opaque Config.freeKind (t : Nat) : BlockKind

/-- Free value: SCALE of a slot that is not live (R45, U9), and the drawn SCALE of a block with a
non-finite element (43_block_quantizer.md R186, U6). -/
opaque Config.freeScale (t : Nat) : Half

/-- Free value: an unspecified code, of a slot that is not live or beyond BLEN (R46, U9, U10). -/
opaque Config.freeCode (t i : Nat) : Byte

/-- Free value: which code of `lo..hi` element `i` of a block with a non-finite element gets (R186, U6).
The quantizer reduces it to the range. -/
opaque Config.freeChoice (t i : Nat) : Nat

end Sys2Proof
end

