-- ==== Sys2Proof/Syntax.lean ====
section
/-! DEFINITION. The ten commands (30_encoding.md R94), the host's events, and the places of the register window
(20_memory.md R61). -/

namespace Sys2Proof

/-- One command per row of the opcode map (R94). A block command carries its SLOT field, a 4-bit unsigned
slot number (R92). -/
inductive Instr where
  /-- F32_TO_BITS, 40_bitview.md R120. -/
  | f32ToBits
  /-- BITS_TO_F32, R121. -/
  | bitsToF32
  /-- BF16_ENC, 41_bfloat16.md R136. -/
  | bf16Enc
  /-- BF16_DEC, R138. -/
  | bf16Dec
  /-- FP16_ENC, 42_float16.md R156. -/
  | fp16Enc
  /-- FP16_DEC, R161. -/
  | fp16Dec
  /-- Q8_ENC s, 43_block_quantizer.md R188. -/
  | q8Enc (slot : Fin 16)
  /-- Q4_ENC s, R189. -/
  | q4Enc (slot : Fin 16)
  /-- Q_DEC s, R191. -/
  | qDec (slot : Fin 16)
  /-- Q_DESTROY s, R192. -/
  | qDestroy (slot : Fin 16)
  deriving DecidableEq, Repr

/-- What the outside world does to the unit, one event per step (10_state.md R30, 92 D34). Addresses are byte
addresses of the host's address space (20_memory.md R60), `width` is the access width in bytes. -/
inductive HostEvent where
  /-- `MemRead(addr, width)`. -/
  | read (width addr : Nat)
  /-- `MemWrite(addr, width, value)`. -/
  | write (width addr : Nat) (value : Word)
  /-- The platform's reset input (70_reset_and_hazards.md R250). -/
  | reset
  deriving DecidableEq, Repr

/-- The places of the register window (R61). A slot or element that does not exist in a configuration has no
place: its offset is `reserved` (R62 to R64). -/
inductive WindowLoc where
  | cmd | opa | res | status | len | cfgNmax | cfgNslots
  | slotCtl (slot : Fin 16)
  | slotLen (slot : Fin 16)
  | slotScale (slot : Fin 16)
  /-- IN[i]. -/
  | inWord (i : Nat)
  /-- OUT[i]. -/
  | outWord (i : Nat)
  /-- Word `j` of the code buffer of a slot. -/
  | codes (slot : Fin 16) (j : Nat)
  /-- Reads 0, ignores writes (R66). -/
  | reserved
  deriving DecidableEq, Repr

end Sys2Proof
end

