-- ==== Sys2Proof/WellFormed.lean ====
section
/-! DEFINITION. Which commands are well formed in a unit of `numSlots` slots: the SLOT field of a block command
names a slot that exists (30_encoding.md R92). The scalar commands have no operand field to check: their SLOT
field is fixed at 0 by the encoding. -/

namespace Sys2Proof

/-- The slot a block command names, `none` for a scalar command (R94). -/
def Instr.slot? : Instr → Option (Fin 16)
  | .f32ToBits => none
  | .bitsToF32 => none
  | .bf16Enc => none
  | .bf16Dec => none
  | .fp16Enc => none
  | .fp16Dec => none
  | .q8Enc s => some s
  | .q4Enc s => some s
  | .qDec s => some s
  | .qDestroy s => some s

/-- A block command's slot number is less than `NUM_SLOTS` (R92). -/
def Instr.wf (numSlots : Nat) (i : Instr) : Bool :=
  match i.slot? with
  | none => true
  | some s => decide (s.val < numSlots)

end Sys2Proof
end

