-- ==== Sys2Proof/Decode.lean ====
section
/-! DEFINITION. The CMD32 format (30_encoding.md R91): decoder, total over all 2^32 words, rejecting by name, and
the encoder. Both are written from the opcode map (R94). -/

namespace Sys2Proof

/-- Why a command word is illegal (R97). Every reason has the one outcome ILLEGAL_CMD (60_exceptions.md R224). -/
inductive Illegal where
  /-- RSVD `w[31:12]` is not 0 (R93). -/
  | reservedBits
  /-- OPCODE `w[7:0]` is in no row of the opcode map (R94, R97). -/
  | unknownOpcode
  /-- A scalar opcode with a nonzero SLOT field (R92, R97). -/
  | scalarSlot
  /-- A block opcode with `SLOT >= NUM_SLOTS` (R92, R97). -/
  | slotOutOfRange
  deriving DecidableEq, Repr

/-- OPCODE, `w[7:0]` (R91). -/
def opcodeField (w : Word) : Nat := bits w 7 0

/-- SLOT, `w[11:8]` (R91, R92). -/
def slotField (w : Word) : Fin 16 := Fin.ofNat 16 (bits w 11 8)

/-- RSVD, `w[31:12]` (R91, R93). -/
def rsvdField (w : Word) : Nat := bits w 31 12

/-- A scalar command's SLOT field must be 0 (R92). -/
def decodeScalar (s : Fin 16) (i : Instr) : Except Illegal Instr :=
  if s = 0 then .ok i else .error .scalarSlot

/-- A block command's SLOT field must name a slot that exists (R92). -/
def decodeBlock (numSlots : Nat) (s : Fin 16) (mk : Fin 16 → Instr) : Except Illegal Instr :=
  if s.val < numSlots then .ok (mk s) else .error .slotOutOfRange

/-- The opcode map (R94) on an opcode and a SLOT field. -/
def decodeFields (numSlots op : Nat) (s : Fin 16) : Except Illegal Instr :=
  if op = 0x01 then decodeScalar s .f32ToBits
  else if op = 0x02 then decodeScalar s .bitsToF32
  else if op = 0x10 then decodeScalar s .bf16Enc
  else if op = 0x11 then decodeScalar s .bf16Dec
  else if op = 0x18 then decodeScalar s .fp16Enc
  else if op = 0x19 then decodeScalar s .fp16Dec
  else if op = 0x20 then decodeBlock numSlots s .q8Enc
  else if op = 0x21 then decodeBlock numSlots s .q4Enc
  else if op = 0x28 then decodeBlock numSlots s .qDec
  else if op = 0x2F then decodeBlock numSlots s .qDestroy
  else .error .unknownOpcode

/-- The command a word selects in a unit of `numSlots` slots, or why it is illegal (R90, R95). -/
def decode (numSlots : Nat) (w : Word) : Except Illegal Instr :=
  if rsvdField w = 0 then decodeFields numSlots (opcodeField w) (slotField w)
  else .error .reservedBits

/-- The OPCODE of a command (R94). -/
def Instr.opcode : Instr → Word
  | .f32ToBits => 0x01
  | .bitsToF32 => 0x02
  | .bf16Enc => 0x10
  | .bf16Dec => 0x11
  | .fp16Enc => 0x18
  | .fp16Dec => 0x19
  | .q8Enc _ => 0x20
  | .q4Enc _ => 0x21
  | .qDec _ => 0x28
  | .qDestroy _ => 0x2F

/-- The command word: `opcode` for a scalar command, `opcode | s << 8` for a block command (R100, R101). -/
def encode (i : Instr) : Word :=
  match i.slot? with
  | none => i.opcode
  | some s => i.opcode ||| (BitVec.ofNat 32 s.val <<< 8)

/-- The 32-bit command word with the low `nbits` bits of `w` and zeros above. A command is one 32-bit word (R98). -/
def tableWord (nbits w : Nat) : Word := BitVec.ofNat 32 (w % 2 ^ nbits)

/-- The command the decoder reads from an opcode-table word, in a unit of the reference `NUM_SLOTS` (R12). -/
def decodeTableWord (nbits w : Nat) : Option Instr :=
  match decode Config.reference.numSlots (tableWord nbits w) with
  | .ok i => some i
  | .error _ => none

end Sys2Proof
end

