-- ==== Sys2Proof/Machine/State.lean ====
section
/-! DEFINITION. The state of the unit (10_state.md §2), its reset value (70_reset_and_hazards.md R250), and the
reasons a step can stop. INVENTORY.md `## State` lists every field with its rule. -/

namespace Sys2Proof.Machine

/-- A quantized block as an encode leaves it: the DOC's `QuantBlock8` / `QuantBlock4` value (10_state.md R41). -/
structure Block where
  /-- SLOT[s].KIND (R43). -/
  kind : BlockKind
  /-- SLOT[s].BLEN (R44). -/
  blen : Word
  /-- SLOT[s].SCALE, a float16 pattern (R45). -/
  scale : Half
  /-- SLOT[s].CODES[0..BLEN-1], element 0 first (R46). -/
  codes : List Byte
  deriving DecidableEq, Repr

/-- A block slot (R41). SLOT[s].VALID is 1 exactly when `block` holds a block (R42); that field is an Option for
the spec's own state "holds no block". What the spec leaves unspecified of a slot (KIND, BLEN, SCALE and CODES while
VALID is 0, CODES[i] for i ≥ BLEN) reads as the free values of tag `draw`. -/
structure Slot where
  block : Option Block
  /-- The model's own: the tag of the slot's unspecified contents. -/
  draw : Nat
  deriving DecidableEq, Repr

/-- An element array of `N_MAX` 32-bit words (R39, R40): the words written since reset, by rising element index.
A word not written since reset reads as the free value of tag `draw` (R252). -/
structure ElemArray where
  cells : List (Nat × Word)
  /-- The model's own: the tag of the words not written since reset. -/
  draw : Nat
  deriving DecidableEq, Repr

/-- STATUS.CODE (R35, 60_exceptions.md R221). -/
inductive StatusCode where
  /-- 0: every command on success. -/
  | ok
  /-- 1: an encode with LEN = 0. -/
  | invalidSize
  /-- 2: an encode with LEN > N_MAX or into a live slot. -/
  | allocFail
  /-- 3: a decode or release of a slot that is not live. -/
  | noBlock
  /-- 4: an illegal command word. -/
  | illegalCmd
  deriving DecidableEq, Repr

/-- The state of the unit, and of the model around it. -/
structure State where
  /-- The parameters (00_scope.md §4). No step changes them; CFG_NMAX and CFG_NSLOTS read from here (R37, R38; log 1). -/
  cfg : Config
  /-- CMD, the last word written (R32). -/
  cmd : Word
  /-- OPA, the scalar operand (R33). -/
  opa : Word
  /-- RES, the result (R34). -/
  res : Word
  /-- STATUS: CODE in bits 2:0, bits 31:3 zero (R35). -/
  status : Word
  /-- LEN, the block length (R36). -/
  len : Word
  /-- IN[0..N_MAX-1] (R39). -/
  inArr : ElemArray
  /-- OUT[0..N_MAX-1] (R40). -/
  outArr : ElemArray
  /-- SLOT[0..NUM_SLOTS-1] (R41); entries at and above NUM_SLOTS are no part of the unit and stay empty. -/
  slots : Vector Slot 16
  /-- The model's own: the next unused tag of a draw (93 Part 1, `any value`). -/
  nextDraw : Nat
  /-- The model's own: what the host and the platform do next, first first (R30, R71; log 3). -/
  pending : List HostEvent
  /-- The model's own: the values the host's reads returned, last first (R259; log 3). -/
  reads : List Word
  deriving DecidableEq, Repr

/-- Reasons to stop with a fault: there are none. "The unit never stops, halts or faults" (R259), and an error of a
command is a status, no fault (60_exceptions.md R220). -/
inductive Fault where
  deriving DecidableEq, Repr

/-- Reasons a step has no meaning. -/
inductive Refusal where
  /-- Raised by an arm of `exec` whose command has no meaning yet; no arm is left so. Safe. -/
  | notModelled (mnemonic : String)
  /-- Raised by `step` for a host access of the window that is not 32 bits wide at an offset that is a multiple of 4:
  "A model treats one as a refusal: the host has no step" (20_memory.md R68, U12). Safe. -/
  | accessShape
  /-- Raised by `step` for a host access outside the unit's window; what is there is the platform's (R65). Safe. -/
  | outsideWindow
  deriving DecidableEq, Repr

/-- An array nothing has been written to (R252). -/
def ElemArray.unwritten (draw : Nat) : ElemArray := { cells := [], draw := draw }

/-- Sixteen slots without a block, each with a tag of its own from `t` on (R250, R252). -/
def emptySlots (t : Nat) : Vector Slot 16 :=
  Vector.ofFn fun k => { block := none, draw := t + k.val }

/-- The unit right after reset, in configuration `c`, its unspecified contents drawn under tags `t` to `t + 17`:
the reset values of 10_state.md §2 (R250, R251). -/
def State.resetWith (c : Config) (t : Nat) (pending : List HostEvent) (reads : List Word) : State where
  cfg := c
  cmd := 0
  opa := 0
  res := 0
  status := 0
  len := 0
  inArr := .unwritten t
  outArr := .unwritten (t + 1)
  slots := emptySlots (t + 2)
  nextDraw := t + 18
  pending := pending
  reads := reads

/-- The unit right after reset in the reference configuration, no host access made or pending (R250). -/
def State.reset : State := State.resetWith Config.reference 0 [] []

end Sys2Proof.Machine
end

