-- ==== Sys2Proof/Machine/Flags.lean ====
section
/-! DEFINITION. STATUS, the unit's only flag (10_state.md R35, R50): its code values and the one operation that
writes it. -/

namespace Sys2Proof.Machine

/-- The value STATUS holds for a code: CODE in bits 2:0, bits 31:3 zero (R35, 60_exceptions.md R221). -/
def StatusCode.toWord : StatusCode → Word
  | .ok => 0
  | .invalidSize => 1
  | .allocFail => 2
  | .noBlock => 3
  | .illegalCmd => 4

/-- STATUS.CODE, bits 2:0 (R35). -/
def State.code (s : State) : Nat := bits s.status 2 0

/-- `finish(code)`: `STATUS <- code` (00_scope.md R16). -/
def finish (c : StatusCode) (s : State) : State := { s with status := c.toWord }

end Sys2Proof.Machine
end

