-- ==== Sys2Proof/Machine/Ops.lean ====
section
/-! DEFINITION. The named operations over the state: element arrays, slots, raising an error, completing a
command. -/

namespace Sys2Proof.Machine

/-! ## Element arrays (IN and OUT) -/

/-- The word with index `i`: the last one written, or the free value if none was since reset (R39, R40, R252). -/
def ElemArray.read (a : ElemArray) (i : Nat) : Word :=
  (a.cells.lookup i).getD (Config.freeWord a.draw i)

/-- Write one cell, the indexes staying in rising order. -/
def insertCell (i : Nat) (w : Word) : List (Nat × Word) → List (Nat × Word)
  | [] => [(i, w)]
  | (j, v) :: rest =>
    if i < j then (i, w) :: (j, v) :: rest
    else if i = j then (i, w) :: rest
    else (j, v) :: insertCell i w rest

/-- Write the word with index `i`. -/
def ElemArray.write (a : ElemArray) (i : Nat) (w : Word) : ElemArray :=
  { a with cells := insertCell i w a.cells }

/-- The cells of the words `ws` at the indexes from `i` on. -/
def cellsFrom (i : Nat) : List Word → List (Nat × Word)
  | [] => []
  | w :: ws => (i, w) :: cellsFrom (i + 1) ws

/-- Write the words with indexes `0 .. ws.length - 1` (20_memory.md R75). -/
def ElemArray.writePrefix (a : ElemArray) (ws : List Word) : ElemArray :=
  { a with cells := cellsFrom 0 ws ++ a.cells.filter fun c => decide (ws.length ≤ c.1) }

/-- The canonical form: the indexes rise and are below `n`. An array holds no entry for a word not written since
reset, so equal arrays are equal data. -/
abbrev ElemArray.Wf (n : Nat) (a : ElemArray) : Prop :=
  a.cells.Pairwise (fun c d => c.1 < d.1) ∧ ∀ c ∈ a.cells, c.1 < n

/-! ## Slots -/

/-- SLOT[s].VALID (R42). -/
def Slot.valid (sl : Slot) : Bool := sl.block.isSome

/-- SLOT[s].KIND (R43). -/
def Slot.kind (sl : Slot) : BlockKind :=
  match sl.block with
  | some b => b.kind
  | none => Config.freeKind sl.draw

/-- SLOT[s].BLEN (R44). -/
def Slot.blen (sl : Slot) : Word :=
  match sl.block with
  | some b => b.blen
  | none => Config.freeWord sl.draw 0

/-- SLOT[s].SCALE (R45). -/
def Slot.scale (sl : Slot) : Half :=
  match sl.block with
  | some b => b.scale
  | none => Config.freeScale sl.draw

/-- The codes an encode stored (R46). -/
def Slot.codes (sl : Slot) : List Byte :=
  match sl.block with
  | some b => b.codes
  | none => []

/-- SLOT[s].CODES[i]; unspecified for `i ≥ BLEN` and while the slot is not live (R46). -/
def Slot.code (sl : Slot) (i : Nat) : Byte :=
  (sl.codes[i]?).getD (Config.freeCode sl.draw i)

/-- SLOT[k] (R41). -/
def State.slot (s : State) (k : Fin 16) : Slot := s.slots[k]

/-- Write SLOT[k]. What the write leaves unspecified of the slot is drawn anew (R46, 43_block_quantizer.md R187,
R192). -/
def State.setBlock (s : State) (k : Fin 16) (b : Option Block) : State :=
  { s with
    slots := s.slots.set k { block := b, draw := s.nextDraw }
    nextDraw := s.nextDraw + 1 }

/-! ## Errors and completion -/

/-- `raise <Error>`: the one way every error of a command is taken. `finish` with the error's code and no other
state change (00_scope.md R16, 60_exceptions.md R220). The unit has no trap, so nothing is saved and there is no
return from one (R229, R230). -/
def raise (c : StatusCode) (s : State) : Host.Outcome State Fault Refusal := .next (finish c s)

/-- A command's success: write RES, then `finish(OK)` (10_state.md R34, R35). -/
def complete (r : Word) (s : State) : Host.Outcome State Fault Refusal := .next (finish .ok { s with res := r })

/-- `zext_32` of a 16-bit result (R16, R34). -/
def zextHalf (h : Half) : Word := h.setWidth 32

/-- The error order of a block command on slot `k`, item 1: the word is not legal when `SLOT >= NUM_SLOTS`
(60_exceptions.md R226). -/
def onSlot (k : Fin 16) (s : State) (act : Host.Outcome State Fault Refusal) : Host.Outcome State Fault Refusal :=
  if k.val < s.cfg.numSlots then act else raise .illegalCmd s

/-- The check of Q_DEC and Q_DESTROY: `if SLOT[k].VALID == 0: raise NoBlock`, else the command works on the block
(60_exceptions.md R225, R226). -/
def onLiveSlot (k : Fin 16) (s : State) (act : Block → Host.Outcome State Fault Refusal) :
    Host.Outcome State Fault Refusal :=
  onSlot k s <|
    match (s.slot k).block with
    | none => raise .noBlock s
    | some b => act b

end Sys2Proof.Machine
end

