-- ==== Sys2Proof/Machine/Operands.lean ====
section
/-! DEFINITION. Every operand form of the commands (30_encoding.md R96): all of OPA, OPA[15:0], the elements
IN[0..LEN-1], and a block's codes. -/

namespace Sys2Proof.Machine

/-- A 32-bit operand: all of OPA, as a pattern (R96, 40_bitview.md R123). -/
def operand32 (s : State) : Word := s.opa

/-- A 16-bit operand: OPA[15:0]; OPA[31:16] is ignored (R96). -/
def operand16 (s : State) : Half := s.opa.setWidth 16

/-- IN[i] (10_state.md R39). -/
def State.readIn (s : State) (i : Nat) : Word := s.inArr.read i

/-- OUT[i] (R40). -/
def State.readOut (s : State) (i : Nat) : Word := s.outArr.read i

/-- `v_0 .. v_(n-1)` with `v_i = IN[i]` (20_memory.md R75). -/
def blockValues (s : State) (n : Nat) : List Word := (List.range n).map s.readIn

/-- A code as the integer the dequantizer multiplies: `sext` for Q8, `zext` for Q4 (R76). -/
def codeInt (kind : BlockKind) (c : Byte) : Int :=
  match kind with
  | .q8 => c.toInt
  | .q4 => (c.toNat : Int)

end Sys2Proof.Machine
end

