-- ==== Sys2Proof/Machine/Fp32.lean ====
section
/-! DEFINITION. Float32 and float16 patterns: their fields (00_scope.md R15), their values (R17, R18), and the
binary32 arithmetic of the quantizer (R19, 92 D12).

A finite float32 value is an integer multiple of 2^-149 (R17), so magnitudes are natural numbers counted in that
unit: exact, with no real arithmetic. -/

namespace Sys2Proof.Machine

/-! ## Float32 fields and values -/

/-- Sign, bit 31. -/
def f32Sign (b : Word) : Bool := bit b 31

/-- Biased exponent, bits 30–23. -/
def f32Exp (b : Word) : Nat := bits b 30 23

/-- Mantissa, bits 22–0. -/
def f32Man (b : Word) : Nat := bits b 22 0

/-- NaN: "exponent field all ones, mantissa nonzero" (glossary, R17). -/
def f32IsNan (b : Word) : Bool := f32Exp b = 255 && f32Man b ≠ 0

/-- ±∞ (R17). -/
def f32IsInf (b : Word) : Bool := f32Exp b = 255 && f32Man b = 0

/-- Neither NaN nor ±∞: the exponent field is not 255 (43_block_quantizer.md R181). -/
def f32IsFinite (b : Word) : Bool := f32Exp b ≠ 255

/-- The float32 pattern with these fields. -/
def f32Pack (s : Bool) (e m : Nat) : Word := BitVec.ofNat 32 (s.toNat * 2 ^ 31 + e * 2 ^ 23 + m)

/-- `|f32val(b)|` of a finite pattern, in units of 2^-149 (R17): `m` for a zero or subnormal, and
`(2^23 + m) × 2^(e-150) = ((2^23 + m) × 2^(e-1)) × 2^-149` for a normal. -/
def f32Mag (b : Word) : Nat :=
  if f32Exp b = 0 then f32Man b else (2 ^ 23 + f32Man b) * 2 ^ (f32Exp b - 1)

/-- `f32val(b)` of a finite pattern, in units of 2^-149 (R17). -/
def f32Val (b : Word) : Int := if f32Sign b then -(f32Mag b : Int) else (f32Mag b : Int)

/-! ## Float16 fields and values -/

/-- Sign, bit 15. -/
def f16Sign (h : Half) : Bool := bit h 15

/-- Biased exponent, bits 14–10. -/
def f16Exp (h : Half) : Nat := bits h 14 10

/-- Mantissa, bits 9–0. -/
def f16Man (h : Half) : Nat := bits h 9 0

/-- The float16 pattern with these fields. -/
def f16Pack (s : Bool) (e m : Nat) : Half := BitVec.ofNat 16 (s.toNat * 2 ^ 15 + e * 2 ^ 10 + m)

/-! ## Binary32 arithmetic, round to nearest, ties to even (R19) -/

/-- The integer nearest `num / den`, a tie to the even one. -/
def roundNearestEven (num den : Nat) : Nat :=
  let q := num / den
  let r := num % den
  if den < 2 * r ∨ (2 * r = den ∧ q % 2 = 1) then q + 1 else q

/-- How many units of 2^-149 the last place of a float32 near `num / den` units has, as a power of two: 0 below
2^24 units, one more for every doubling after that. -/
def ulpShift (num den : Nat) : Nat := Nat.log2 (num / den) - 23

/-- The magnitude pattern of `fl32` of `num / den` units of 2^-149: the significand rounded to an integer of at most
2^24 last places, over the exponent; at and above `2^128 − 2^103` it is the infinity pattern (R19). A carry out of
the significand raises the exponent by itself. -/
def fl32Mag (num den : Nat) : Nat :=
  let k := ulpShift num den
  min (k * 2 ^ 23 + roundNearestEven num (den * 2 ^ k)) (255 * 2 ^ 23)

/-- `fl32` of `num / den` units of 2^-149 with a sign, which a zero result keeps (R19). -/
def fl32 (s : Bool) (num den : Nat) : Word := BitVec.ofNat 32 (s.toNat * 2 ^ 31 + fl32Mag num den)

/-- `fl32(a ⊘ n)` for a finite non-negative `a`, given as its magnitude pattern, and a positive integer `n`
(43_block_quantizer.md R183). -/
def f32DivNat (a : Word) (n : Nat) : Word := fl32 false (f32Mag a) n

/-- `fl32(a ⊘ d)` for a finite `a` and a `d` that is +∞ or finite and positive, the only operands the quantizer
divides (R185): `x / +∞ = ±0` (R19). -/
def f32Div (a d : Word) : Word :=
  let s := f32Sign a ^^ f32Sign d
  if f32IsInf d then f32Pack s 0 0 else fl32 s (f32Mag a * 2 ^ 149) (f32Mag d)

/-- `fl32(c ⊗ d)` for an integer `c` and a `d` that is no NaN, `c` not 0 when `d` is ±∞ (R190). The sign is the
exclusive or of the operands' signs, 0 counting as +0 (DEDUCED from R19's "IEEE-754 binary32 … multiplication",
log 6). -/
def f32MulInt (c : Int) (d : Word) : Word :=
  let s := decide (c < 0) ^^ f32Sign d
  if f32IsInf d then f32Pack s 255 0 else fl32 s (c.natAbs * f32Mag d) 1

/-! ## Integer rounding (R20) -/

/-- `round_q` on a magnitude of `m` units of 2^-149. -/
def roundMag (ties : Ties) (m : Nat) : Nat :=
  match ties with
  | .away => (2 * m + 2 ^ 149) / 2 ^ 150
  | .even => roundNearestEven m (2 ^ 149)

/-- `round_q(f32val(q))` of a finite pattern `q` (R20). -/
def roundQ (ties : Ties) (q : Word) : Int :=
  if f32Sign q then -(roundMag ties (f32Mag q) : Int) else (roundMag ties (f32Mag q) : Int)

/-- `clamp(c, lo, hi)` (R20). -/
def clampInt (c lo hi : Int) : Int := if c < lo then lo else if hi < c then hi else c

end Sys2Proof.Machine
end

