-- ==== Sys2Proof/Machine/BFloat16.lean ====
section
/-! DEFINITION. `fp32_to_bf16_truncator` (41_bfloat16.md): round to nearest even, subnormals flushed, NaNs made quiet. -/

namespace Sys2Proof.Machine

/-- `up = b[31:16]`. -/
def upperHalf (b : Word) : Half := b.extractLsb' 16 16

/-- `inc` of step 4: 1 above the halfway point, or at it when `up[0]` is 1 (R134). -/
def bf16Inc (b : Word) : Half :=
  if 0x8000 < bits b 15 0 ∨ (bits b 15 0 = 0x8000 ∧ bit (upperHalf b) 0) then 1 else 0

/-- `bf16_encode(b)` (R130 to R135). -/
def bf16Encode (b : Word) : Half :=
  if f32IsNan b then upperHalf b ||| 0x0040
  else if f32Exp b = 0 then upperHalf b &&& 0x8000
  else upperHalf b + bf16Inc b

/-- `bf16_decode(h) = h << 16` (R137). -/
def bf16Decode (h : Half) : Word := h.setWidth 32 <<< 16

/-- BF16_ENC (R136). -/
def execBf16Enc (s : State) : Host.Outcome State Fault Refusal := complete (zextHalf (bf16Encode (operand32 s))) s

/-- BF16_DEC (R138). -/
def execBf16Dec (s : State) : Host.Outcome State Fault Refusal := complete (bf16Decode (operand16 s)) s

end Sys2Proof.Machine
end

