-- ==== Sys2Proof/Machine/BitView.lean ====
section
/-! DEFINITION. `fp32_bits_reinterpreter` (40_bitview.md): both commands copy OPA to RES (00_scope.md R21). -/

namespace Sys2Proof.Machine

/-- `to_bits`, the identity on patterns (R21, R120). -/
def toBits (b : Word) : Word := b

/-- `from_bits`, the identity on patterns (R21, R121). -/
def fromBits (b : Word) : Word := b

/-- F32_TO_BITS (R120). -/
def execF32ToBits (s : State) : Host.Outcome State Fault Refusal := complete (toBits (operand32 s)) s

/-- BITS_TO_F32 (R121). -/
def execBitsToF32 (s : State) : Host.Outcome State Fault Refusal := complete (fromBits (operand32 s)) s

end Sys2Proof.Machine
end

