-- ==== Sys2Proof/Machine/Float16.lean ====
section
/-! DEFINITION. `fp32_to_fp16_rounder` (42_float16.md): float16 encode truncates, float16 decode is exact. -/

namespace Sys2Proof.Machine

/-- The rebiased exponent `E = e − 127 + 15` (R150). -/
def f16Rebias (b : Word) : Int := (f32Exp b : Int) - 127 + 15

/-- The mantissa of an encoded NaN: the top 10 mantissa bits, or `FP16_NAN_FILL` when they are zero (R153). -/
def f16NanMan (fill : BitVec 10) (b : Word) : Nat :=
  if f32Man b / 2 ^ 13 = 0 then fill.toNat else f32Man b / 2 ^ 13

/-- `fp16_encode(b)`, the cases in the order of R151 to R155. -/
def fp16Encode (fill : BitVec 10) (b : Word) : Half :=
  let s := f32Sign b
  let e := f16Rebias b
  if e < -10 then f16Pack s 0 0
  else if e ≤ 0 then f16Pack s 0 ((f32Man b ||| 0x800000) >>> (1 - e).toNat >>> 13)
  else if f32Exp b = 255 then f16Pack s 31 (if f32Man b = 0 then 0 else f16NanMan fill b)
  else if 30 < e then f16Pack s 31 0
  else f16Pack s e.toNat (f32Man b / 2 ^ 13)

/-- `fp16_decode(h)`, R157 to R160. In R158 `p = log2 m` is the index of the highest set bit of `m`. -/
def fp16Decode (h : Half) : Word :=
  let s := f16Sign h
  let e := f16Exp h
  let m := f16Man h
  if e = 0 then
    if m = 0 then f32Pack s 0 0
    else
      let k := 10 - Nat.log2 m
      f32Pack s (113 - k) (((m <<< k) &&& 0x3FF) <<< 13)
  else if e = 31 then f32Pack s 255 (m <<< 13)
  else f32Pack s (e + 112) (m <<< 13)

/-- FP16_ENC (R156). -/
def execFp16Enc (s : State) : Host.Outcome State Fault Refusal :=
  complete (zextHalf (fp16Encode s.cfg.fp16NanFill (operand32 s))) s

/-- FP16_DEC (R161). -/
def execFp16Dec (s : State) : Host.Outcome State Fault Refusal := complete (fp16Decode (operand16 s)) s

end Sys2Proof.Machine
end

