-- ==== Sys2Proof/Machine/Quantizer.lean ====
section
/-! DEFINITION. `block_quantizer_engine` (43_block_quantizer.md): `scale_extractor` (R181 to R184),
`element_quantizer` (R185, R186), `dequantizer` (R190), and the four block commands. -/

namespace Sys2Proof.Machine

/-! ## The kind table -/

/-- code_range (R182). -/
def codeRange (c : Config) : BlockKind → Nat
  | .q8 => 127
  | .q4 => c.q4CodeMax

/-- `lo`, the smallest code. -/
def codeLo (c : Config) : BlockKind → Int
  | .q8 => c.q8CodeMin
  | .q4 => 0

/-- `hi`, the largest code. -/
def codeHi (c : Config) : BlockKind → Int
  | .q8 => 127
  | .q4 => (c.q4CodeMax : Int)

/-! ## scale_extractor -/

/-- The magnitude of a pattern: bit 31 cleared (R181). -/
def magBits (v : Word) : Word := v &&& 0x7FFFFFFF

/-- `mx`, as a pattern: the largest magnitude of the block (R181). Magnitude patterns of finite values compare as
their values do. -/
def blockMax (vs : List Word) : Word := vs.foldl (fun mx v => if mx < magBits v then magBits v else mx) 0

/-- `scale_h` (R183): the float16 encoding of `sf = fl32(mx ⊘ code_range)`. -/
def blockScale (c : Config) (kind : BlockKind) (vs : List Word) : Half :=
  fp16Encode c.fp16NanFill (f32DivNat (blockMax vs) (codeRange c kind))

/-! ## element_quantizer -/

/-- `c_i` of a finite element, with `d` the pattern of the decoded scale: 0 when `d = 0` (R184), else the rounded
and clamped quotient (R185). -/
def elementCode (c : Config) (kind : BlockKind) (d v : Word) : Int :=
  if f32Mag d = 0 then 0
  else clampInt (roundQ c.qroundTies (f32Div v d)) (codeLo c kind) (codeHi c kind)

/-- `c_i` of a block with a non-finite element: a free value in `lo..hi` (R186). -/
def freeElementCode (c : Config) (kind : BlockKind) (t i : Nat) : Int :=
  codeLo c kind + ((Config.freeChoice t i : Int) % (codeHi c kind - codeLo c kind + 1))

/-- SCALE and the codes of a block, free values drawn under tag `t` where an element is not finite
(R181 to R186). -/
def quantize (c : Config) (kind : BlockKind) (t : Nat) (vs : List Word) : Half × List Int :=
  if vs.all f32IsFinite then
    let h := blockScale c kind vs
    (h, vs.map (elementCode c kind (fp16Decode h)))
  else (Config.freeScale t, (List.range vs.length).map (freeElementCode c kind t))

/-- The block an encode writes: KIND, `BLEN <- n`, SCALE, and each `c_i mod 256` as a byte (R187). -/
def encodedBlock (c : Config) (kind : BlockKind) (t : Nat) (len : Word) (vs : List Word) : Block :=
  let q := quantize c kind t vs
  { kind := kind, blen := len, scale := q.1, codes := q.2.map (BitVec.ofInt 8) }

/-- Q8_ENC and Q4_ENC: the checks of R180 in the order of R226, then the block write of R187. -/
def encodeInto (kind : BlockKind) (k : Fin 16) (s : State) : Host.Outcome State Fault Refusal :=
  onSlot k s <|
    if s.len = 0 then raise .invalidSize s
    else if s.cfg.nMax < s.len.toNat then raise .allocFail s
    else if (s.slot k).valid then raise .allocFail s
    else
      let b := encodedBlock s.cfg kind s.nextDraw s.len (blockValues s s.len.toNat)
      complete (zextHalf b.scale) (s.setBlock k (some b))

/-! ## dequantizer -/

/-- The OUT word of a code `c` and a scale (R190). -/
def reconstruct (cfg : Config) (scale : Half) (c : Int) : Word :=
  let d := fp16Decode scale
  if f32IsNan d || (f32IsInf d && decide (c = 0)) then cfg.defaultNan else f32MulInt c d

/-- The OUT words of a slot that holds block `b` (R191). -/
def decodedWords (s : State) (k : Fin 16) (b : Block) : List Word :=
  (List.range b.blen.toNat).map fun i => reconstruct s.cfg b.scale (codeInt b.kind ((s.slot k).code i))

/-! ## The commands -/

/-- Q8_ENC s (R188). -/
def execQ8Enc (k : Fin 16) (s : State) : Host.Outcome State Fault Refusal := encodeInto .q8 k s

/-- Q4_ENC s (R189). -/
def execQ4Enc (k : Fin 16) (s : State) : Host.Outcome State Fault Refusal := encodeInto .q4 k s

/-- Q_DEC s (R191). -/
def execQDec (k : Fin 16) (s : State) : Host.Outcome State Fault Refusal :=
  onLiveSlot k s fun b => complete b.blen { s with outArr := s.outArr.writePrefix (decodedWords s k b) }

/-- Q_DESTROY s (R192): RES is not changed, and KIND, BLEN, SCALE and CODES become unspecified. -/
def execQDestroy (k : Fin 16) (s : State) : Host.Outcome State Fault Refusal :=
  onLiveSlot k s fun _ => .next (finish .ok (s.setBlock k none))

end Sys2Proof.Machine
end

