-- ==== Sys2Proof/Machine/Dispatch.lean ====
section
/-! DEFINITION. `perform` (30_encoding.md R90): one arm per command of the opcode map (R94). -/

namespace Sys2Proof.Machine

/-- The effect of a command on the state its CMD write leaves (R90, R94). -/
def exec (i : Instr) (s : State) : Host.Outcome State Fault Refusal :=
  match i with
  | .f32ToBits => Sys2Proof.Machine.execF32ToBits s
  | .bitsToF32 => Sys2Proof.Machine.execBitsToF32 s
  | .bf16Enc => Sys2Proof.Machine.execBf16Enc s
  | .bf16Dec => Sys2Proof.Machine.execBf16Dec s
  | .fp16Enc => Sys2Proof.Machine.execFp16Enc s
  | .fp16Dec => Sys2Proof.Machine.execFp16Dec s
  | .q8Enc k => Sys2Proof.Machine.execQ8Enc k s
  | .q4Enc k => Sys2Proof.Machine.execQ4Enc k s
  | .qDec k => Sys2Proof.Machine.execQDec k s
  | .qDestroy k => Sys2Proof.Machine.execQDestroy k s

end Sys2Proof.Machine
end

