-- ==== Sys2Proof/Machine/Window.lean ====
section
/-! DEFINITION. The register window (20_memory.md) and the host's events: reads, writes, the CMD write that
executes a command (30_encoding.md R90), and reset. -/

namespace Sys2Proof.Machine

/-! ## The map -/

/-- The places of the registers, offsets 0x000000 to 0x0000FF (R61). -/
def locateRegister (off : Nat) : WindowLoc :=
  match off with
  | 0x00 => .cmd
  | 0x04 => .opa
  | 0x08 => .res
  | 0x0C => .status
  | 0x10 => .len
  | 0x14 => .cfgNmax
  | 0x18 => .cfgNslots
  | _ => .reserved

/-- The places of slot `k`'s registers by their offset in its 16 bytes (R61, R62). -/
def locateSlotRegister (k : Fin 16) (r : Nat) : WindowLoc :=
  match r with
  | 0x0 => .slotCtl k
  | 0x4 => .slotLen k
  | 0x8 => .slotScale k
  | _ => .reserved

/-- The place at a window offset that is a multiple of 4 (R61 to R64); what the rules mark reserved is `reserved`
(R66). -/
def locate (c : Config) (off : Nat) : WindowLoc :=
  if off < 0x100 then locateRegister off
  else if off < 0x200 then
    let k := (off - 0x100) / 0x10
    if k < c.numSlots then locateSlotRegister (Fin.ofNat 16 k) ((off - 0x100) % 0x10) else .reserved
  else if off < 0x100000 then .reserved
  else if off < 0x200000 then
    let i := (off - 0x100000) / 4
    if i < c.nMax then .inWord i else .reserved
  else if off < 0x300000 then
    let i := (off - 0x200000) / 4
    if i < c.nMax then .outWord i else .reserved
  else if off < 0x400000 then .reserved
  else
    let k := (off - 0x400000) / 0x40000
    let j := (off - 0x400000) % 0x40000 / 4
    if k < c.numSlots ∧ 4 * j < c.nMax then .codes (Fin.ofNat 16 k) j else .reserved

/-! ## Reads -/

/-- The KIND bit (10_state.md R43). -/
def kindBit : BlockKind → Bool
  | .q8 => false
  | .q4 => true

/-- SLOT_CTL: `zext_32(KIND << 1 | VALID)` (R62). -/
def slotCtl (sl : Slot) : Word := BitVec.ofNat 32 (2 * (kindBit sl.kind).toNat + sl.valid.toNat)

/-- The byte lane of code `i`: a code index `>= N_MAX` reads as 0x00 (R64). -/
def codeLane (c : Config) (sl : Slot) (i : Nat) : Byte := if i < c.nMax then sl.code i else 0

/-- Word `j` of a slot's code buffer: the four codes from `4j` on, little-endian (R64). -/
def codesWord (c : Config) (sl : Slot) (j : Nat) : Word :=
  codeLane c sl (4 * j + 3) ++ codeLane c sl (4 * j + 2) ++ codeLane c sl (4 * j + 1) ++ codeLane c sl (4 * j)

/-- The value a host read of a place returns (R61 to R64, R66). -/
def readLoc (s : State) : WindowLoc → Word
  | .cmd => s.cmd
  | .opa => s.opa
  | .res => s.res
  | .status => s.status
  | .len => s.len
  | .cfgNmax => BitVec.ofNat 32 s.cfg.nMax
  | .cfgNslots => BitVec.ofNat 32 s.cfg.numSlots
  | .slotCtl k => slotCtl (s.slot k)
  | .slotLen k => (s.slot k).blen
  | .slotScale k => zextHalf (s.slot k).scale
  | .inWord i => s.readIn i
  | .outWord i => s.readOut i
  | .codes k j => codesWord s.cfg (s.slot k) j
  | .reserved => 0

/-! ## Writes -/

/-- A host write of `w` to CMD: store it, then decode and perform it, or raise IllegalCommand
(30_encoding.md R90, 60_exceptions.md R224). -/
def writeCmd (w : Word) (s : State) : Host.Outcome State Fault Refusal :=
  match decode s.cfg.numSlots w with
  | .ok i => exec i { s with cmd := w }
  | .error _ => raise .illegalCmd { s with cmd := w }

/-- A host write of `w` to a place. OPA, LEN and IN[i] store it (R69); read-only and reserved places ignore it
(R66). -/
def writeLoc (w : Word) (s : State) : WindowLoc → Host.Outcome State Fault Refusal
  | .cmd => writeCmd w s
  | .opa => .next { s with opa := w }
  | .res => .next s
  | .status => .next s
  | .len => .next { s with len := w }
  | .cfgNmax => .next s
  | .cfgNslots => .next s
  | .slotCtl _ => .next s
  | .slotLen _ => .next s
  | .slotScale _ => .next s
  | .inWord i => .next { s with inArr := s.inArr.write i w }
  | .outWord _ => .next s
  | .codes _ _ => .next s
  | .reserved => .next s

/-! ## Events -/

/-- The window is 2^23 bytes from `FFC_BASE` on (R60). -/
def inWindow (c : Config) (addr : Nat) : Bool := c.ffcBase ≤ addr && addr < c.ffcBase + 2 ^ 23

/-- A host access: the place its address names, or the refusal of one the unit has no meaning for: outside the
window (R65), or not an aligned 32-bit access (R68). -/
def accessLoc (c : Config) (width addr : Nat) : Except Refusal WindowLoc :=
  if inWindow c addr then
    if width = 4 ∧ (addr - c.ffcBase) % 4 = 0 then .ok (locate c (addr - c.ffcBase)) else .error .accessShape
  else .error .outsideWindow

/-- The effect of one event (10_state.md R30; 92 D34). A read returns its value to the host and changes nothing else
(R69). Reset keeps the configuration and the host's program (70_reset_and_hazards.md R250). -/
def perform (e : HostEvent) (s : State) : Host.Outcome State Fault Refusal :=
  match e with
  | .read width addr =>
    match accessLoc s.cfg width addr with
    | .ok loc => .next { s with reads := readLoc s loc :: s.reads }
    | .error r => .refused r
  | .write width addr w =>
    match accessLoc s.cfg width addr with
    | .ok loc => writeLoc w s loc
    | .error r => .refused r
  | .reset => .next (State.resetWith s.cfg s.nextDraw s.pending s.reads)

end Sys2Proof.Machine
end

