-- ==== Sys2Proof/Machine/Step.lean ====
section
/-! DEFINITION. One step of the model: the next event of the host or the platform, performed whole
(10_state.md R30; 92 D34). -/

namespace Sys2Proof.Machine

/-- Perform the next pending event. With none pending the unit is idle and keeps its state
(70_reset_and_hazards.md R259). -/
def step (s : State) : Host.Outcome State Fault Refusal :=
  match s.pending with
  | [] => .next s
  | e :: rest => perform e { s with pending := rest }

/-- The address of CMD (20_memory.md R60, R61). -/
def cmdAddr (c : Config) : Nat := c.ffcBase

/-- `s` with the command word `w` delivered to it: the unit fetches nothing (10_state.md R49), so the word stands in
the host's next access, a write of CMD, and the next step executes it (log 4). -/
def State.withFetchWord (s : State) (nbits w : Nat) : State :=
  { s with pending := .write 4 (cmdAddr s.cfg) (tableWord nbits w) :: s.pending }

end Sys2Proof.Machine
end

