-- ==== Sys2Proof/Safety.lean ====
section
/-! DEFINITION. What claims about runs are stated in: the invariant of the state, the host accesses the spec gives a
meaning, and a run that does not stop. -/

namespace Sys2Proof.Machine

/-- A live block as 10_state.md R47 has it: `1 <= BLEN <= N_MAX`, one code per element, each in its kind's range.
(R47's clause on SCALE[15] depends on the elements a block was encoded from, which no state holds; it is a
statement about the encode.) -/
abbrev Block.Wf (c : Config) (b : Block) : Prop :=
  1 ≤ b.blen.toNat ∧ b.blen.toNat ≤ c.nMax ∧ b.codes.length = b.blen.toNat ∧
  ∀ x ∈ b.codes, codeLo c b.kind ≤ codeInt b.kind x ∧ codeInt b.kind x ≤ codeHi c b.kind

/-- The tags under which unspecified contents stand drawn: IN, OUT and the slots. -/
def State.tags (s : State) : List Nat := s.inArr.draw :: s.outArr.draw :: s.slots.toList.map Slot.draw

/-- The invariant of the state: a legal configuration; STATUS one of the five codes (R35); IN and OUT in canonical
form within N_MAX; a live slot one that exists, its block as R47 has it; and no two unspecified contents drawn under
one tag, nor under a tag still to be used. -/
abbrev State.Wf (s : State) : Prop :=
  s.cfg.Legal ∧
  s.status.toNat ≤ 4 ∧
  s.inArr.Wf s.cfg.nMax ∧ s.outArr.Wf s.cfg.nMax ∧
  (∀ k : Fin 16, ∀ b ∈ (s.slot k).block, k.val < s.cfg.numSlots ∧ b.Wf s.cfg) ∧
  s.tags.Nodup ∧ ∀ t ∈ s.tags, t < s.nextDraw

/-- An event the spec gives a meaning: an aligned 32-bit access of the window (20_memory.md R68), or reset. -/
abbrev Meaningful (c : Config) : HostEvent → Prop
  | .read width addr => inWindow c addr = true ∧ width = 4 ∧ (addr - c.ffcBase) % 4 = 0
  | .write width addr _ => inWindow c addr = true ∧ width = 4 ∧ (addr - c.ffcBase) % 4 = 0
  | .reset => True

/-- The encode command of a kind: Q8_ENC or Q4_ENC (30_encoding.md R94). -/
def encodeCmd : BlockKind → Fin 16 → Instr
  | .q8 => .q8Enc
  | .q4 => .q4Enc

/-- `n` steps from `s` stop at no fault and no refusal. -/
def RunsFor (n : Nat) (s : State) : Prop := ∃ t, Sys2Proof.core.run n s = .next t

end Sys2Proof.Machine
end

