-- ==== Sys2Proof/Certificates/Slice0/Obligations.lean ====
section
/-! DEFINITION. The statements for the provers, and the few words they are stated in. A statement about a state holds
in every configuration the state may carry; where the spec's parameter ranges matter, `Config.Legal` is a premise. -/

open Sys2Proof Sys2Proof.Machine

namespace Sys2Proof.Claim

/-! ## The words of the statements -/

/-- `legal(w)` as 30_encoding.md R95 writes it, in a unit of `n` slots. -/
abbrev LegalWord (n : Nat) (w : Word) : Prop :=
  let op := w &&& 0xFF
  let s := (w >>> 8) &&& 0xF
  let r := w >>> 12
  r = 0 ∧ ((op ∈ [0x01, 0x02, 0x10, 0x11, 0x18, 0x19] ∧ s = 0) ∨
    (op ∈ [0x20, 0x21, 0x28, 0x2F] ∧ s.toNat < n))

/-- The words 30_encoding.md R97 lists as illegal. -/
abbrev ListedIllegal (n : Nat) (w : Word) : Prop :=
  let op := (w &&& 0xFF).toNat
  let s := ((w >>> 8) &&& 0xF).toNat
  op = 0x00 ∨ (0x03 ≤ op ∧ op ≤ 0x0F) ∨ (0x12 ≤ op ∧ op ≤ 0x17) ∨ (0x1A ≤ op ∧ op ≤ 0x1F) ∨
  (0x22 ≤ op ∧ op ≤ 0x27) ∨ (0x29 ≤ op ∧ op ≤ 0x2E) ∨ 0x30 ≤ op ∨
  (op ∈ [0x01, 0x02, 0x10, 0x11, 0x18, 0x19] ∧ s ≠ 0) ∨
  (op ∈ [0x20, 0x21, 0x28, 0x2F] ∧ n ≤ s) ∨
  w >>> 12 ≠ 0

/-- The host's next access is a 32-bit read at window offset `off`: the unit returns `v` and nothing but that
changes. -/
def ReadGives (s : State) (off : Nat) (v : Word) : Prop :=
  step { s with pending := .read 4 (s.cfg.ffcBase + off) :: s.pending } = .next { s with reads := v :: s.reads }

/-- The host's next access is a 32-bit write of `w` at window offset `off`: the state after it is `t`. -/
def WriteGives (s : State) (off : Nat) (w : Word) (t : State) : Prop :=
  step { s with pending := .write 4 (s.cfg.ffcBase + off) w :: s.pending } = .next t

/-- The offsets 20_memory.md R61 to R64 mark reserved. -/
abbrev ReservedOffset (c : Config) (off : Nat) : Prop :=
  (0x1C ≤ off ∧ off < 0x100) ∨
  (∃ k < 16, off = 0x10C + 0x10 * k ∨ (c.numSlots ≤ k ∧ 0x100 + 0x10 * k ≤ off ∧ off < 0x110 + 0x10 * k)) ∨
  (0x200 ≤ off ∧ off < 0x100000) ∨
  (0x100000 + 4 * c.nMax ≤ off ∧ off < 0x200000) ∨
  (0x200000 + 4 * c.nMax ≤ off ∧ off < 0x300000) ∨
  (0x300000 ≤ off ∧ off < 0x400000) ∨
  (∃ k < 16, ∃ j < 0x10000, (c.numSlots ≤ k ∨ c.nMax ≤ 4 * j) ∧ off = 0x400000 + 0x40000 * k + 4 * j)

/-- The offsets of read-only registers and arrays (20_memory.md R66). -/
abbrev ReadOnlyOffset (c : Config) (off : Nat) : Prop :=
  off = 0x08 ∨ off = 0x0C ∨ off = 0x14 ∨ off = 0x18 ∨
  (∃ k < c.numSlots, off = 0x100 + 0x10 * k ∨ off = 0x104 + 0x10 * k ∨ off = 0x108 + 0x10 * k) ∨
  (∃ i < c.nMax, off = 0x200000 + 4 * i) ∨
  (∃ k < c.numSlots, ∃ j, 4 * j < c.nMax ∧ off = 0x400000 + 0x40000 * k + 4 * j)

/-- The checks of 43_block_quantizer.md R180 pass for an encode into slot `k`, and the slot exists. -/
abbrev EncodeReady (s : State) (k : Fin 16) : Prop :=
  k.val < s.cfg.numSlots ∧ s.len ≠ 0 ∧ s.len.toNat ≤ s.cfg.nMax ∧ (s.slot k).valid = false

/-- Every element of the block IN[0..LEN-1] is finite. -/
abbrev FiniteInput (s : State) : Prop := ∀ i < s.len.toNat, f32IsFinite (s.readIn i) = true

/-- `|f16val(h)|` of a finite float16 pattern in units of 2^-24 (00_scope.md R18). -/
def f16Mag (h : Half) : Nat := if f16Exp h = 0 then f16Man h else (2 ^ 10 + f16Man h) * 2 ^ (f16Exp h - 1)

/-- How far apart two naturals are. -/
def gap (a b : Nat) : Nat := ((a : Int) - (b : Int)).natAbs

/-- The state after a command that completed with result `r` and changed nothing but RES and STATUS. -/
def withResult (s : State) (r : Word) : State := { s with res := r, status := 0 }

end Sys2Proof.Claim

open Sys2Proof.Claim

/-! ## Encoding -/

/-- Decoding and encoding agree, in both directions and for every number of slots (30_encoding.md §2, §3). -/
def Obligations.DecodeIsInverseOfEncode : Prop :=
  ∀ (n : Nat) (w : Word) (i : Instr), decode n w = .ok i ↔ (i.wf n = true ∧ encode i = w)

/-- R95: the decoder accepts exactly the legal words, and the two ways the rule writes legality agree. -/
def Obligations.DecodeAcceptsExactlyLegalWords : Prop :=
  ∀ (n : Nat) (w : Word),
    ((∃ i, decode n w = .ok i) ↔ LegalWord n w) ∧
    (LegalWord n w ↔
      w ∈ [0x00000001, 0x00000002, 0x00000010, 0x00000011, 0x00000018, 0x00000019] ∨
      (w &&& 0xFFFFF0FF ∈ [0x20, 0x21, 0x28, 0x2F] ∧ ((w >>> 8) &&& 0xF).toNat < n))

/-- R97: every illegal word sets ILLEGAL_CMD and changes nothing else (CMD keeps the word), and the words the rule
lists are illegal. -/
def Obligations.IllegalWordSetsIllegalCmdOnly : Prop :=
  ∀ (s : State) (w : Word),
    (¬ LegalWord s.cfg.numSlots w → WriteGives s 0x00 w { s with cmd := w, status := 4 }) ∧
    (ListedIllegal s.cfg.numSlots w → ¬ LegalWord s.cfg.numSlots w)

/-- The command words of R101, which the spec marks as derived from R91 and R94. -/
def Obligations.CommandWordsDecode : Prop :=
  decode 4 0x00000001 = .ok .f32ToBits ∧ decode 4 0x00000002 = .ok .bitsToF32 ∧
  decode 4 0x00000010 = .ok .bf16Enc ∧ decode 4 0x00000011 = .ok .bf16Dec ∧
  decode 4 0x00000018 = .ok .fp16Enc ∧ decode 4 0x00000019 = .ok .fp16Dec ∧
  decode 4 0x00000020 = .ok (.q8Enc 0) ∧ decode 4 0x00000021 = .ok (.q4Enc 0) ∧
  decode 4 0x00000028 = .ok (.qDec 0) ∧ decode 4 0x0000002F = .ok (.qDestroy 0) ∧
  decode 4 0x00000220 = .ok (.q8Enc 2) ∧ decode 4 0x00000420 = .error .slotOutOfRange

/-! ## Steps -/

/-- R90: a CMD write stores the word and performs the command it selects, or raises IllegalCommand. -/
def Obligations.StepRunsDecodedCommand : Prop :=
  ∀ (s : State) (w : Word),
    (∀ i, decode s.cfg.numSlots w = .ok i →
      (∀ rest, s.pending = .write 4 s.cfg.ffcBase w :: rest →
        step s = exec i { s with pending := rest, cmd := w }) ∧
      step (s.withFetchWord 32 w.toNat) = exec i { s with cmd := w }) ∧
    (∀ r, decode s.cfg.numSlots w = .error r →
      WriteGives s 0x00 w { s with cmd := w, status := 4 })

/-- With no event pending the unit keeps its state (70_reset_and_hazards.md §5). -/
def Obligations.IdleUnitKeepsState : Prop := ∀ s : State, s.pending = [] → step s = .next s

/-- R68: an access of another width than 32 bits, or misaligned, is refused. -/
def Obligations.OddAccessIsRefused : Prop :=
  ∀ (s : State) (width addr : Nat) (w : Word) (rest : List HostEvent),
    inWindow s.cfg addr = true → (width ≠ 4 ∨ (addr - s.cfg.ffcBase) % 4 ≠ 0) →
    (s.pending = .read width addr :: rest ∨ s.pending = .write width addr w :: rest) →
    step s = .refused .accessShape

/-- The unit performs the events one at a time, in their order, and never changes its configuration; only a read adds
to what the host has read, and it adds one value (20_memory.md §3, R71; 10_state.md §1). -/
def Obligations.EventsHappenOneByOneInOrder : Prop :=
  ∀ (s t : State) (e : HostEvent) (rest : List HostEvent), s.pending = e :: rest → step s = .next t →
    t.pending = rest ∧ t.cfg = s.cfg ∧
    ((∀ width addr, e ≠ .read width addr) → t.reads = s.reads) ∧
    (∀ width addr, e = .read width addr → ∃ v, t = { s with pending := rest, reads := v :: s.reads })

/-- A program of meaningful accesses and resets runs for any number of steps: the unit never stops
(70_reset_and_hazards.md §5). -/
def Obligations.MeaningfulProgramNeverStops : Prop :=
  ∀ s : State, (∀ e ∈ s.pending, Meaningful s.cfg e) → ∀ n, RunsFor n s

/-! ## The register window -/

/-- The seven registers of R61's first rows read what they hold. CFG_NMAX and CFG_NSLOTS always read their constants
and ignore writes (R37, R38). -/
def Obligations.RegisterReads : Prop :=
  ∀ s : State,
    ReadGives s 0x00 s.cmd ∧ ReadGives s 0x04 s.opa ∧ ReadGives s 0x08 s.res ∧ ReadGives s 0x0C s.status ∧
    ReadGives s 0x10 s.len ∧ ReadGives s 0x14 (BitVec.ofNat 32 s.cfg.nMax) ∧
    ReadGives s 0x18 (BitVec.ofNat 32 s.cfg.numSlots) ∧
    ∀ w, WriteGives s 0x14 w s ∧ WriteGives s 0x18 w s

/-- R62: the slot registers, unspecified values while VALID is 0, and the registers of slots that do not exist, which
read 0 and ignore writes. -/
def Obligations.SlotRegisterReads : Prop :=
  ∀ (s : State) (k : Fin 16),
    (k.val < s.cfg.numSlots →
      ReadGives s (0x100 + 0x10 * k.val)
        ((if (s.slot k).kind = .q4 then 2 else 0) ||| (if (s.slot k).valid then 1 else 0)) ∧
      ReadGives s (0x104 + 0x10 * k.val) (s.slot k).blen ∧
      ReadGives s (0x108 + 0x10 * k.val) ((s.slot k).scale.setWidth 32)) ∧
    ((s.slot k).valid = false →
      (s.slot k).kind = Config.freeKind (s.slot k).draw ∧ (s.slot k).blen = Config.freeWord (s.slot k).draw 0 ∧
      (s.slot k).scale = Config.freeScale (s.slot k).draw) ∧
    (s.cfg.numSlots ≤ k.val →
      ∀ r ∈ [0x0, 0x4, 0x8, 0xC], ReadGives s (0x100 + 0x10 * k.val + r) 0 ∧
        ∀ w, WriteGives s (0x100 + 0x10 * k.val + r) w s)

/-- R63: the element arrays, and the reserved rest of their ranges, which reads 0 and ignores writes. -/
def Obligations.ElementArrayReads : Prop :=
  ∀ s : State, s.cfg.Legal → ∀ i < 2 ^ 18,
    (i < s.cfg.nMax →
      ReadGives s (0x100000 + 4 * i) (s.readIn i) ∧ ReadGives s (0x200000 + 4 * i) (s.readOut i)) ∧
    (s.cfg.nMax ≤ i → ∀ base ∈ [0x100000, 0x200000],
      ReadGives s (base + 4 * i) 0 ∧ ∀ w, WriteGives s (base + 4 * i) w s) ∧
    ReadGives s (0x300000 + 4 * i) 0 ∧ ∀ w, WriteGives s (0x300000 + 4 * i) w s

/-- R64: a code-buffer word is the four codes from `4j` on, little-endian, an index at or above N_MAX reading as 0;
the words above N_MAX and the buffers of slots that do not exist read 0 and ignore writes. -/
def Obligations.CodeBufferReads : Prop :=
  ∀ (s : State) (k : Fin 16) (j : Nat), j < 0x10000 →
    let lane (i : Nat) : Word := if i < s.cfg.nMax then ((s.slot k).code i).setWidth 32 else 0
    (k.val < s.cfg.numSlots → 4 * j < s.cfg.nMax →
      ReadGives s (0x400000 + 0x40000 * k.val + 4 * j)
        (lane (4 * j) ||| lane (4 * j + 1) <<< 8 ||| lane (4 * j + 2) <<< 16 ||| lane (4 * j + 3) <<< 24)) ∧
    (s.cfg.nMax ≤ 4 * j ∨ s.cfg.numSlots ≤ k.val →
      ReadGives s (0x400000 + 0x40000 * k.val + 4 * j) 0 ∧
      ∀ w, WriteGives s (0x400000 + 0x40000 * k.val + 4 * j) w s)

/-- R66: reserved offsets read as 0 and ignore writes; read-only places ignore writes. -/
def Obligations.ReservedAndReadOnlyOffsets : Prop :=
  ∀ (s : State) (off : Nat) (w : Word), s.cfg.Legal → off % 4 = 0 →
    (ReservedOffset s.cfg off → ReadGives s off 0 ∧ WriteGives s off w s) ∧
    (ReadOnlyOffset s.cfg off → WriteGives s off w s)

/-- A write to OPA, LEN or IN[i] only stores the value; IN reads back what was written there and keeps every other
element (20_memory.md §2, R69). -/
def Obligations.OperandWritesOnlyStore : Prop :=
  ∀ (s : State) (w : Word), s.cfg.Legal →
    WriteGives s 0x04 w { s with opa := w } ∧ WriteGives s 0x10 w { s with len := w } ∧
    ∀ i < s.cfg.nMax, ∃ t, WriteGives s (0x100000 + 4 * i) w t ∧ t = { s with inArr := t.inArr } ∧
      t.readIn i = w ∧ ∀ j, j ≠ i → t.readIn j = s.readIn j

/-- A host write other than to CMD changes no result, no status and no block: a block owns its codes
(20_memory.md §3, R73). -/
def Obligations.OperandWritesKeepResultsAndBlocks : Prop :=
  ∀ (s t : State) (width addr : Nat) (w : Word) (rest : List HostEvent),
    s.pending = .write width addr w :: rest → addr ≠ s.cfg.ffcBase → step s = .next t →
    t.cmd = s.cmd ∧ t.res = s.res ∧ t.status = s.status ∧ t.outArr = s.outArr ∧ t.slots = s.slots

/-! ## Reset -/

/-- R250: what the reset input leaves, in any state. What becomes unspecified reads as free values (R252). -/
def Obligations.ResetInputResetsEverything : Prop :=
  ∀ (s : State) (rest : List HostEvent), s.pending = .reset :: rest →
    ∃ t, step s = .next t ∧
      t.cmd = 0 ∧ t.opa = 0 ∧ t.res = 0 ∧ t.status = 0 ∧ t.len = 0 ∧ t.cfg = s.cfg ∧
      (∀ k, (t.slot k).valid = false ∧ (t.slot k).kind = Config.freeKind (t.slot k).draw ∧
        (t.slot k).blen = Config.freeWord (t.slot k).draw 0 ∧ (t.slot k).scale = Config.freeScale (t.slot k).draw ∧
        ∀ i, (t.slot k).code i = Config.freeCode (t.slot k).draw i) ∧
      ∀ i, t.readIn i = Config.freeWord t.inArr.draw i ∧ t.readOut i = Config.freeWord t.outArr.draw i

/-- The unspecified contents a reset leaves are drawn afresh, each part under a tag no part had before; the host's
program and what it has read stay. How the model draws is its own choice (logs 3, 5, 10), as 70_reset_and_hazards.md §1
asks for arbitrary values. -/
def Obligations.ResetDrawsAreFresh : Prop :=
  ∀ (s t : State) (rest : List HostEvent), s.pending = .reset :: rest → step s = .next t →
    t.tags.Nodup ∧ (∀ x ∈ t.tags, s.nextDraw ≤ x ∧ x < t.nextDraw) ∧ t.pending = rest ∧ t.reads = s.reads

/-- The reset state (70_reset_and_hazards.md §1). Its configuration is the reference one; `FFC_BASE = 0` in it is the
model's choice (log 2). -/
def Obligations.ResetStateValues : Prop :=
  State.reset.cmd = 0 ∧ State.reset.opa = 0 ∧ State.reset.res = 0 ∧ State.reset.status = 0 ∧ State.reset.len = 0 ∧
  State.reset.cfg = Config.reference ∧ (∀ k, (State.reset.slot k).valid = false) ∧
  (∀ i, State.reset.readIn i = Config.freeWord State.reset.inArr.draw i) ∧
  ∀ i, State.reset.readOut i = Config.freeWord State.reset.outArr.draw i

/-- R251: a slot that holds no block stays so under everything but an encode of it that succeeds, and meanwhile Q_DEC and
Q_DESTROY of it give NO_BLOCK; the reset input leaves every slot so. -/
def Obligations.EmptySlotGivesNoBlockUntilEncoded : Prop :=
  (∀ (s t : State) (rest : List HostEvent) (k : Fin 16),
    s.pending = .reset :: rest → step s = .next t → (t.slot k).valid = false) ∧
  (∀ (s t : State) (k : Fin 16), (s.slot k).valid = false → step s = .next t → (t.slot k).valid = true →
    ∃ kind w rest, s.pending = .write 4 s.cfg.ffcBase w :: rest ∧
      decode s.cfg.numSlots w = .ok (encodeCmd kind k) ∧ t.status = 0) ∧
  (∀ (s : State) (k : Fin 16), k.val < s.cfg.numSlots → (s.slot k).valid = false →
    exec (.qDec k) s = .next { s with status := 3 } ∧ exec (.qDestroy k) s = .next { s with status := 3 })

/-- The reset state meets the invariant. -/
def Obligations.ResetStateIsWellFormed : Prop := State.reset.Wf

/-- Every step keeps the invariant: a legal configuration, a STATUS code of the table, canonical arrays within N_MAX,
live blocks as R47 has them, and unspecified contents drawn independently. -/
def Obligations.StepKeepsWellFormed : Prop := ∀ s t : State, s.Wf → step s = .next t → t.Wf

/-! ## All commands -/

/-- A command that fails changes nothing but STATUS (60_exceptions.md §1). -/
def Obligations.FailingCommandChangesOnlyStatus : Prop :=
  ∀ (i : Instr) (s t : State), exec i s = .next t → t.status ≠ 0 → t = { s with status := t.status }

/-- No command writes CMD, OPA, LEN, IN or the configuration, and none touches the host's program or its record of
reads (10_state.md §3, §4). -/
def Obligations.CommandsKeepOperandsAndConfig : Prop :=
  ∀ (i : Instr) (s t : State), exec i s = .next t →
    t.cmd = s.cmd ∧ t.opa = s.opa ∧ t.len = s.len ∧ t.inArr = s.inArr ∧ t.cfg = s.cfg ∧
    t.pending = s.pending ∧ t.reads = s.reads

/-- OUT is written by Q_DEC only, and a slot only by Q8_ENC, Q4_ENC and Q_DESTROY of that slot
(10_state.md §4, §5; 60_exceptions.md §5). -/
def Obligations.OnlyNamedCommandsWriteOutAndSlots : Prop :=
  ∀ (i : Instr) (s t : State), exec i s = .next t →
    ((∀ k, i ≠ .qDec k) → t.outArr = s.outArr) ∧
    (∀ k, i ≠ .q8Enc k → i ≠ .q4Enc k → i ≠ .qDestroy k → t.slot k = s.slot k)

/-- R220 to R225: what a CMD write reports and when, each code exactly, and that an error changes nothing but STATUS,
CMD keeping the word. -/
def Obligations.ErrorTable : Prop :=
  ∀ (s t : State) (w : Word), step { s with pending := .write 4 s.cfg.ffcBase w :: s.pending } = .next t →
    (t.status = 1 ↔ ∃ kind k, w = encode (encodeCmd kind k) ∧ k.val < s.cfg.numSlots ∧ s.len = 0) ∧
    (t.status = 2 ↔ ∃ kind k, w = encode (encodeCmd kind k) ∧ k.val < s.cfg.numSlots ∧ s.len ≠ 0 ∧
      (s.cfg.nMax < s.len.toNat ∨ (s.slot k).valid = true)) ∧
    (t.status = 3 ↔ ∃ k, (w = encode (.qDec k) ∨ w = encode (.qDestroy k)) ∧ k.val < s.cfg.numSlots ∧
      (s.slot k).valid = false) ∧
    (t.status = 4 ↔ ¬ LegalWord s.cfg.numSlots w) ∧
    t.status.toNat ≤ 4 ∧
    (t.status ≠ 0 → t = { s with cmd := w, status := t.status })

/-- R226: the order of the errors, on the words the host writes. -/
def Obligations.ErrorPriority : Prop :=
  ∀ (s : State) (k : Fin 16) (kind : BlockKind),
    (∀ w, ¬ LegalWord s.cfg.numSlots w → WriteGives s 0x00 w { s with cmd := w, status := 4 }) ∧
    (k.val < s.cfg.numSlots →
      let w := encode (encodeCmd kind k)
      (s.len = 0 → WriteGives s 0x00 w { s with cmd := w, status := 1 }) ∧
      (s.len ≠ 0 → s.cfg.nMax < s.len.toNat → WriteGives s 0x00 w { s with cmd := w, status := 2 }) ∧
      (s.len ≠ 0 → s.len.toNat ≤ s.cfg.nMax → (s.slot k).valid = true →
        WriteGives s 0x00 w { s with cmd := w, status := 2 })) ∧
    (k.val < s.cfg.numSlots → (s.slot k).valid = false →
      WriteGives s 0x00 (encode (.qDec k)) { s with cmd := encode (.qDec k), status := 3 } ∧
      WriteGives s 0x00 (encode (.qDestroy k)) { s with cmd := encode (.qDestroy k), status := 3 })

/-! ## Scalar commands -/

/-- R120: F32_TO_BITS. -/
def Obligations.F32ToBitsCopiesOpa : Prop :=
  ∀ s : State, exec .f32ToBits s = .next (withResult s s.opa) ∧
    WriteGives s 0x00 0x00000001 (withResult { s with cmd := 0x00000001 } s.opa)

/-- R121: BITS_TO_F32. -/
def Obligations.BitsToF32CopiesOpa : Prop :=
  ∀ s : State, exec .bitsToF32 s = .next (withResult s s.opa) ∧
    WriteGives s 0x00 0x00000002 (withResult { s with cmd := 0x00000002 } s.opa)

/-- The BitView round trip of R122 (which the spec marks as derived from R120 and R121): from any pattern in OPA, one
command, its result moved to OPA, then the other command give the pattern back. -/
def Obligations.BitViewRoundTrip : Prop :=
  ∀ (s : State) (b : Word), s.opa = b →
    ∃ t u v w, exec .bitsToF32 s = .next t ∧ exec .f32ToBits { t with opa := t.res } = .next u ∧ u.res = b ∧
      exec .f32ToBits s = .next v ∧ exec .bitsToF32 { v with opa := v.res } = .next w ∧ w.res = b

/-- BF16_ENC: the three cases of R131, R132 and R134 on OPA, R134 in the form "Adding 1 to bit 16 of `b` and then
shifting right by 16", with nothing but RES and STATUS changed (41_bfloat16.md §1, §2). -/
def Obligations.Bf16EncResult : Prop :=
  ∀ s : State,
    let b := s.opa
    let e := b.toNat / 2 ^ 23 % 2 ^ 8
    let m := b.toNat % 2 ^ 23
    (e = 0xFF ∧ m ≠ 0 → exec .bf16Enc s = .next (withResult s ((b >>> 16) ||| 0x0040))) ∧
    (e = 0 → exec .bf16Enc s = .next (withResult s ((b >>> 16) &&& 0x8000))) ∧
    (e ≠ 0 → ¬ (e = 0xFF ∧ m ≠ 0) →
      ((0x8000 < b.toNat % 2 ^ 16 ∨ (b.toNat % 2 ^ 16 = 0x8000 ∧ b.toNat / 2 ^ 16 % 2 = 1)) →
        exec .bf16Enc s = .next (withResult s ((b + 0x10000) >>> 16))) ∧
      (¬ (0x8000 < b.toNat % 2 ^ 16 ∨ (b.toNat % 2 ^ 16 = 0x8000 ∧ b.toNat / 2 ^ 16 % 2 = 1)) →
        exec .bf16Enc s = .next (withResult s (b >>> 16))))

/-- bfloat16 encode of a normal or infinite pattern is the nearest bfloat16 pattern, ties to even: no 16-bit pattern,
read as the upper half of a 32-bit one, is nearer (41_bfloat16.md §1; 90_conflicts.md C9). -/
def Obligations.Bf16EncodeRoundsToNearestEven : Prop :=
  ∀ b : Word, f32Exp b ≠ 0 → f32IsNan b = false →
    (∀ h : Half, gap ((bf16Encode b).toNat * 2 ^ 16) b.toNat ≤ gap (h.toNat * 2 ^ 16) b.toNat) ∧
    ∀ h : Half, h ≠ bf16Encode b →
      gap (h.toNat * 2 ^ 16) b.toNat = gap ((bf16Encode b).toNat * 2 ^ 16) b.toNat →
      (bf16Encode b).toNat % 2 = 0

/-- bfloat16 NaN preservation, R139, which the spec marks as derived from R131. -/
def Obligations.Bf16EncodeKeepsNan : Prop :=
  ∀ b : Word, f32IsNan b = true →
    bits (bf16Encode b) 14 7 = 0xFF ∧ bits (bf16Encode b) 6 6 = 1 ∧ bits (bf16Encode b) 15 15 = bits b 31 31

/-- Exactly where bfloat16 encode after decode is the identity, and what it gives elsewhere: R140, which the spec marks
as derived (90_conflicts.md C6). -/
def Obligations.Bf16IdempotenceDomain : Prop :=
  ∀ x : Half,
    let subnormal := bits x 14 7 = 0 ∧ bits x 6 0 ≠ 0
    let signalling := bits x 14 7 = 0xFF ∧ bits x 6 6 = 0 ∧ bits x 5 0 ≠ 0
    (bf16Encode (bf16Decode x) = x ↔ ¬ subnormal ∧ ¬ signalling) ∧
    (subnormal → bf16Encode (bf16Decode x) = x &&& 0x8000) ∧
    (signalling → bf16Encode (bf16Decode x) = x ||| 0x0040)

/-- BF16_DEC: `OPA[15:0] << 16` (41_bfloat16.md §3, R137, R138); OPA[31:16] does not matter, so that is OPA shifted. -/
def Obligations.Bf16DecResult : Prop :=
  ∀ s : State, exec .bf16Dec s = .next (withResult s (s.opa <<< 16)) ∧
    WriteGives s 0x00 0x00000011 (withResult { s with cmd := 0x00000011 } (s.opa <<< 16))

/-- FP16_ENC: the five cases of R151 to R155 by the exponent field of OPA, with nothing but RES and STATUS changed
(42_float16.md §1, §2). `sign` is `s << 15`. -/
def Obligations.Fp16EncResult : Prop :=
  ∀ s : State,
    let b := s.opa
    let e := b.toNat / 2 ^ 23 % 2 ^ 8
    let m := b.toNat % 2 ^ 23
    let sign := b.toNat / 2 ^ 31 * 2 ^ 15
    let gives (r : Nat) : Prop := exec .fp16Enc s = .next (withResult s (BitVec.ofNat 32 (sign + r)))
    (e < 102 → gives 0) ∧
    (102 ≤ e → e ≤ 112 → gives ((2 ^ 23 + m) / 2 ^ (126 - e))) ∧
    (113 ≤ e → e ≤ 142 → gives ((e - 112) * 2 ^ 10 + m / 2 ^ 13)) ∧
    (143 ≤ e → e ≤ 254 → gives 0x7C00) ∧
    (e = 255 → m = 0 → gives 0x7C00) ∧
    (e = 255 → m ≠ 0 → m / 2 ^ 13 ≠ 0 → gives (0x7C00 + m / 2 ^ 13)) ∧
    (e = 255 → m ≠ 0 → m / 2 ^ 13 = 0 → gives (0x7C00 + s.cfg.fp16NanFill.toNat))

/-- FP16_DEC: the four cases of R157 to R160 on OPA[15:0], with nothing but RES and STATUS changed
(42_float16.md §3, §4). `sign` is `s << 31`; in the subnormal case `p` is the index of the highest set bit. -/
def Obligations.Fp16DecResult : Prop :=
  ∀ s : State,
    let h := s.opa.toNat % 2 ^ 16
    let e := h / 2 ^ 10 % 2 ^ 5
    let m := h % 2 ^ 10
    let sign := h / 2 ^ 15 * 2 ^ 31
    let gives (r : Nat) : Prop := exec .fp16Dec s = .next (withResult s (BitVec.ofNat 32 (sign + r)))
    (e = 0 → m = 0 → gives 0) ∧
    (e = 0 → ∀ p, 2 ^ p ≤ m → m < 2 ^ (p + 1) →
      gives ((113 - (10 - p)) * 2 ^ 23 + (m * 2 ^ (10 - p) - 2 ^ 10) * 2 ^ 13)) ∧
    (e = 31 → gives (0x7F800000 + m * 2 ^ 13)) ∧
    (1 ≤ e → e ≤ 30 → gives ((e + 112) * 2 ^ 23 + m * 2 ^ 13))

/-- BF16_DEC and FP16_DEC ignore OPA[31:16]: states that agree in everything else give the same result
(30_encoding.md §4, R96). -/
def Obligations.HalfDecodesIgnoreUpperOpa : Prop :=
  ∀ (s : State) (a : Word), a.toNat % 2 ^ 16 = s.opa.toNat % 2 ^ 16 → ∀ i ∈ [Instr.bf16Dec, Instr.fp16Dec],
    ∃ t u, exec i s = .next t ∧ exec i { s with opa := a } = .next u ∧ u.res = t.res ∧ u.status = t.status

/-- float16 decode is exact, R162, which the spec marks as derived: the value of every float16 pattern that is not a NaN
is kept, an infinity as an infinity, and so is the sign. -/
def Obligations.Fp16DecodeIsExact : Prop :=
  ∀ h : Half,
    f32Sign (fp16Decode h) = f16Sign h ∧
    (f16Exp h ≠ 31 → f32IsFinite (fp16Decode h) = true ∧ f32Mag (fp16Decode h) = f16Mag h * 2 ^ 125) ∧
    (f16Exp h = 31 → f16Man h = 0 → f32IsInf (fp16Decode h) = true)

/-- float16 encode after decode is the identity for all 65536 patterns, whatever `FP16_NAN_FILL` is: R163, which the
spec marks as derived. -/
def Obligations.Fp16EncodeAfterDecode : Prop :=
  ∀ (fill : BitVec 10) (h : Half), fp16Encode fill (fp16Decode h) = h

/-- float16 encode truncates the magnitude, saturates at 65536 and keeps NaNs: R164, which the spec marks as derived.
Magnitudes are in units of 2^-149, so 2^-24 is `2^125` units and 65536 is `2^165`; the last place of the result is
`2^125` units times two to its exponent field less one. -/
def Obligations.Fp16EncodeTruncates : Prop :=
  ∀ (fill : BitVec 10) (b : Word), fill ≠ 0 →
    let h := fp16Encode fill b
    f16Sign h = f32Sign b ∧
    (f32IsFinite b = true → f32Mag b < 2 ^ 125 → f16Exp h = 0 ∧ f16Man h = 0) ∧
    (f32IsFinite b = true → 2 ^ 125 ≤ f32Mag b → f32Mag b < 2 ^ 165 →
      f16Exp h ≠ 31 ∧ f16Mag h * 2 ^ 125 ≤ f32Mag b ∧
      f32Mag b < f16Mag h * 2 ^ 125 + 2 ^ 125 * 2 ^ (f16Exp h - 1)) ∧
    (f32IsFinite b = true → 2 ^ 165 ≤ f32Mag b → f16Exp h = 31 ∧ f16Man h = 0) ∧
    (f32IsInf b = true → f16Exp h = 31 ∧ f16Man h = 0) ∧
    (f32IsNan b = true → f16Exp h = 31 ∧ f16Man h ≠ 0)

/-! ## Binary32 arithmetic -/

/-- `fl32` is correct rounding (00_scope.md R19, which the spec takes from general knowledge): of all finite float32
magnitudes the result is the nearest to `num / den` units of 2^-149, a tie going to an even mantissa; it is infinite
exactly from `2^128 − 2^103 = (2^25 − 1) × 2^103` on; it keeps the sign and is never a NaN. -/
def Obligations.Fl32RoundsToNearestEven : Prop :=
  ∀ (sg : Bool) (num den : Nat), 0 < den →
    let r := fl32 sg num den
    f32Sign r = sg ∧ f32IsNan r = false ∧
    (f32IsInf r = true ↔ (2 ^ 25 - 1) * (den * 2 ^ 252) ≤ num) ∧
    (f32IsFinite r = true → ∀ x : Word, f32IsFinite x = true →
      gap (f32Mag r * den) num ≤ gap (f32Mag x * den) num ∧
      (gap (f32Mag r * den) num = gap (f32Mag x * den) num → f32Mag x ≠ f32Mag r → f32Man r % 2 = 0))

/-- `round_q` (00_scope.md §5, R20): the nearest integer, a tie away from zero or to even as `QROUND_TIES` says. Values
are in units of 2^-149. -/
def Obligations.RoundQIsNearestInteger : Prop :=
  ∀ (ties : Ties) (q : Word), f32IsFinite q = true →
    let c := roundQ ties q
    let err := (f32Val q - c * 2 ^ 149).natAbs
    2 * err ≤ 2 ^ 149 ∧
    (2 * err = 2 ^ 149 →
      (ties = .away → f32Mag q < c.natAbs * 2 ^ 149) ∧ (ties = .even → c % 2 = 0))

/-! ## Block quantizer -/

/-- Q8_ENC and Q4_ENC complete when the checks of R180 pass: the block write of R187, in any input, with KIND, BLEN and
RES as the rule says and nothing else changed (43_block_quantizer.md §3, §4). -/
def Obligations.EncodeWritesBlock : Prop :=
  ∀ (s : State) (k : Fin 16) (kind : BlockKind), EncodeReady s k →
    ∃ b : Block,
      exec (encodeCmd kind k) s = .next { s with
        slots := s.slots.set k { block := some b, draw := s.nextDraw }
        nextDraw := s.nextDraw + 1
        res := b.scale.setWidth 32
        status := 0 } ∧
      b.kind = kind ∧ b.blen = s.len ∧ b.codes.length = s.len.toNat

/-- The stored scale of a finite block (43_block_quantizer.md §2, R181 to R183): the float16 encoding of the largest
magnitude, which is one of the elements', divided by code_range in binary32; it is not negative. -/
def Obligations.FiniteBlockScale : Prop :=
  ∀ (s : State) (k : Fin 16) (kind : BlockKind), s.cfg.Legal → EncodeReady s k → FiniteInput s →
    ∃ t, exec (encodeCmd kind k) s = .next t ∧
      ∃ j < s.len.toNat, (∀ i < s.len.toNat, f32Mag (s.readIn i) ≤ f32Mag (s.readIn j)) ∧
        (t.slot k).scale = fp16Encode s.cfg.fp16NanFill
          (fl32 false (f32Mag (s.readIn j)) (match kind with | .q8 => 127 | .q4 => s.cfg.q4CodeMax)) ∧
        (t.slot k).scale.toNat < 2 ^ 15

/-- The codes of a finite block: a zero scale gives codes 0 (43_block_quantizer.md §2, R184), else each code is the
quotient by the decoded scale, rounded and clamped to the kind's range (43_block_quantizer.md §3, R185). -/
def Obligations.FiniteBlockCodes : Prop :=
  ∀ (s : State) (k : Fin 16) (kind : BlockKind), s.cfg.Legal → EncodeReady s k → FiniteInput s →
    ∃ t, exec (encodeCmd kind k) s = .next t ∧ ∀ i < s.len.toNat,
      let d := fp16Decode (t.slot k).scale
      let c := codeInt kind ((t.slot k).code i)
      ((t.slot k).scale = 0x0000 → c = 0) ∧
      ((t.slot k).scale ≠ 0x0000 → kind = .q8 →
        c = max s.cfg.q8CodeMin (min (roundQ s.cfg.qroundTies (f32Div (s.readIn i) d)) 127)) ∧
      ((t.slot k).scale ≠ 0x0000 → kind = .q4 →
        c = max 0 (min (roundQ s.cfg.qroundTies (f32Div (s.readIn i) d)) (s.cfg.q4CodeMax : Int)))

/-- A block with a NaN or an infinity still encodes (43_block_quantizer.md §3, R186): VALID, KIND and BLEN are as for any
block, SCALE and each code are draws, each code in the kind's range. How the model draws is its own choice (log 12): SCALE
is the free value of the encode's tag, code `i` is `lo` plus the free choice of that tag and `i`, reduced to `lo..hi`. -/
def Obligations.NonFiniteBlockIsDrawn : Prop :=
  ∀ (s : State) (k : Fin 16) (kind : BlockKind), s.cfg.Legal → EncodeReady s k → ¬ FiniteInput s →
    ∃ t, exec (encodeCmd kind k) s = .next t ∧ t.status = 0 ∧
      (t.slot k).valid = true ∧ (t.slot k).kind = kind ∧ (t.slot k).blen = s.len ∧
      (t.slot k).scale = Config.freeScale s.nextDraw ∧
      ∀ i < s.len.toNat, (t.slot k).code i = BitVec.ofInt 8 (freeElementCode s.cfg kind s.nextDraw i) ∧
        codeLo s.cfg kind ≤ codeInt kind ((t.slot k).code i) ∧ codeInt kind ((t.slot k).code i) ≤ codeHi s.cfg kind

/-- What an encode of a finite block computes depends on the configuration, LEN and IN[0..LEN-1] alone: two states that
agree there get the same scale and codes, whatever else they hold (20_memory.md §4, R75). -/
def Obligations.EncodeDependsOnInputOnly : Prop :=
  ∀ (s s' : State) (k k' : Fin 16) (kind : BlockKind), EncodeReady s k → EncodeReady s' k' → FiniteInput s →
    s'.cfg = s.cfg → s'.len = s.len → (∀ i < s.len.toNat, s'.readIn i = s.readIn i) →
    ∃ t t', exec (encodeCmd kind k) s = .next t ∧ exec (encodeCmd kind k') s' = .next t' ∧
      t'.res = t.res ∧ (t'.slot k').block = (t.slot k).block

/-- Q_DEC of a live slot (43_block_quantizer.md §5, R191): OUT[i] for `i < BLEN` is the reconstructed element, RES is
BLEN, and nothing else changes, the slot and OUT[i] for `i >= BLEN` included. -/
def Obligations.DecodeWritesOut : Prop :=
  ∀ (s : State) (k : Fin 16) (b : Block), k.val < s.cfg.numSlots → (s.slot k).block = some b →
    ∃ t, exec (.qDec k) s = .next t ∧ t = { s with outArr := t.outArr, res := b.blen, status := 0 } ∧
      (∀ i < b.blen.toNat, t.readOut i = reconstruct s.cfg b.scale (codeInt b.kind ((s.slot k).code i))) ∧
      ∀ i, b.blen.toNat ≤ i → t.readOut i = s.readOut i

/-- The reconstructed element (43_block_quantizer.md §5, R190): DEFAULT_NAN for a NaN scale and for 0 times an infinite
one; a signed infinity for any other code with an infinite scale; else exactly `c × d`. The sign of a zero is the
exclusive or of the signs, which is the model's reading of R19 where the scale is negative (log 6). -/
def Obligations.ReconstructIsExactProduct : Prop :=
  ∀ (cfg : Config) (h : Half) (c : Int), -255 ≤ c → c ≤ 255 →
    let d := fp16Decode h
    let r := reconstruct cfg h c
    (f32IsNan d = true ∨ (f32IsInf d = true ∧ c = 0) → r = cfg.defaultNan) ∧
    (f32IsInf d = true → c ≠ 0 → f32IsInf r = true ∧ f32Sign r = (decide (c < 0) ^^ f32Sign d)) ∧
    (f32IsFinite d = true → f32IsFinite r = true ∧ f32Val r = c * (f32Val d) ∧
      f32Sign r = (decide (c < 0) ^^ f32Sign d))

/-- A block may be decoded any number of times: a second Q_DEC of the slot changes nothing (43_block_quantizer.md §5,
R191). -/
def Obligations.DecodeIsRepeatable : Prop :=
  ∀ (s t : State) (k : Fin 16), (s.slot k).valid = true → exec (.qDec k) s = .next t → t.status = 0 →
    exec (.qDec k) t = .next t

/-- Q_DESTROY of a live slot (43_block_quantizer.md §6, R192): VALID becomes 0, the slot's contents unspecified, and
nothing else changes, RES included; a second Q_DESTROY is rejected, and so is a Q_DEC. -/
def Obligations.DestroyReleasesOnce : Prop :=
  ∀ (s : State) (k : Fin 16), k.val < s.cfg.numSlots → (s.slot k).valid = true →
    let t : State := { s with
      slots := s.slots.set k { block := none, draw := s.nextDraw }
      nextDraw := s.nextDraw + 1
      status := 0 }
    exec (.qDestroy k) s = .next t ∧ (t.slot k).valid = false ∧
    exec (.qDestroy k) t = .next { t with status := 3 } ∧ exec (.qDec k) t = .next { t with status := 3 }

/-- Zero-block safety, R193, which the spec marks as derived: a block of zeros of either sign gets scale 0 and codes 0,
and decodes to zeros, with STATUS OK both times. -/
def Obligations.ZeroBlockIsSafe : Prop :=
  ∀ (s : State) (k : Fin 16) (kind : BlockKind), s.cfg.Legal → EncodeReady s k →
    (∀ i < s.len.toNat, s.readIn i = 0x00000000 ∨ s.readIn i = 0x80000000) →
    ∃ t u, exec (encodeCmd kind k) s = .next t ∧ t.status = 0 ∧ (t.slot k).scale = 0x0000 ∧
      (∀ i < s.len.toNat, (t.slot k).code i = 0x00) ∧
      exec (.qDec k) t = .next u ∧ u.status = 0 ∧ ∀ i < s.len.toNat, u.readOut i = 0x00000000

/-- The error bound, R194, which the spec marks as derived: for a finite, nonzero decoded scale `d`, an element whose
rounded quotient needs no clamp decodes within `0.5 × d + |v| × 2^-24` of itself. Values are in units of 2^-149 and the
inequality is multiplied by 2^25. -/
def Obligations.QuantizationErrorBound : Prop :=
  ∀ (s : State) (k : Fin 16) (kind : BlockKind), s.cfg.Legal → EncodeReady s k → FiniteInput s →
    ∃ t u, exec (encodeCmd kind k) s = .next t ∧ exec (.qDec k) t = .next u ∧ u.status = 0 ∧
      let d := fp16Decode (t.slot k).scale
      (f32IsFinite d = true → f32Mag d ≠ 0 → ∀ i < s.len.toNat,
        let c := roundQ s.cfg.qroundTies (f32Div (s.readIn i) d)
        codeLo s.cfg kind ≤ c → c ≤ codeHi s.cfg kind →
        f32IsFinite (u.readOut i) = true ∧
        2 ^ 25 * (f32Val (u.readOut i) - f32Val (s.readIn i)).natAbs
          ≤ 2 ^ 24 * f32Mag d + 2 * f32Mag (s.readIn i))

/-- Where no clamp bites (the domain of R194's bound): a block whose scale is a float16 normal clamps no Q8 element and no
non-negative Q4 element. -/
def Obligations.NormalScaleNeverClamps : Prop :=
  ∀ (s : State) (k : Fin 16) (kind : BlockKind), s.cfg.Legal → EncodeReady s k → FiniteInput s →
    ∃ t, exec (encodeCmd kind k) s = .next t ∧
      (0x0400 ≤ (t.slot k).scale.toNat → (t.slot k).scale.toNat ≤ 0x7BFF → ∀ i < s.len.toNat,
        kind = .q8 ∨ f32Sign (s.readIn i) = false →
        let c := roundQ s.cfg.qroundTies (f32Div (s.readIn i) (fp16Decode (t.slot k).scale))
        codeLo s.cfg kind ≤ c ∧ c ≤ codeHi s.cfg kind)

/-- Every code the spec leaves unspecified is a free value (10_state.md §5, R46; U9, U10), drawn under the slot's tag,
which is the model's choice (log 5): each code of a slot that is not live, and each code of a live block from BLEN on. A
successful encode or release draws them anew (43_block_quantizer.md §3, R187; §6, R192). -/
def Obligations.UnspecifiedCodesAreFree : Prop :=
  (∀ (s : State) (k : Fin 16), (s.slot k).valid = false →
    ∀ i, (s.slot k).code i = Config.freeCode (s.slot k).draw i) ∧
  (∀ (s : State) (k : Fin 16) (b : Block), (s.slot k).block = some b → b.Wf s.cfg →
    ∀ i, b.blen.toNat ≤ i → (s.slot k).code i = Config.freeCode (s.slot k).draw i) ∧
  (∀ (s : State) (k : Fin 16) (kind : BlockKind), EncodeReady s k →
    ∃ t, exec (encodeCmd kind k) s = .next t ∧
      ∀ i, s.len.toNat ≤ i → (t.slot k).code i = Config.freeCode s.nextDraw i) ∧
  (∀ (s : State) (k : Fin 16), k.val < s.cfg.numSlots → (s.slot k).valid = true →
    ∃ t, exec (.qDestroy k) s = .next t ∧ ∀ i, (t.slot k).code i = Config.freeCode s.nextDraw i)
end

