-- ==== Sys2Proof/Laws/Decode.lean ====
section
/-! SUPPORT. The fields of a command word and the word they make, the two field checks of the decoder. -/

namespace Sys2Proof

theorem bits_def {w : Nat} (v : BitVec w) (hi lo : Nat) : bits v hi lo = v.toNat / 2 ^ lo % 2 ^ (hi + 1 - lo) := rfl

/-- A word is its three fields (30_encoding.md R91). -/
theorem word_eq_fields (w : Word) :
    w.toNat = opcodeField w + 256 * (slotField w).val + 4096 * rsvdField w ∧ opcodeField w < 256 ∧
    rsvdField w < 2 ^ 20 := by
  have hw := w.isLt
  simp only [rsvdField, opcodeField, slotField, bits_def, Fin.ofNat]
  omega

/-- The fields of a word written as an opcode and a slot number. -/
theorem fields_of_word {op : Nat} {s : Fin 16} {w : Word} (ho : op < 256) (h : w.toNat = op + 256 * s.val) :
    rsvdField w = 0 ∧ opcodeField w = op ∧ slotField w = s := by
  have hs := s.isLt
  refine ⟨?_, ?_, Fin.ext ?_⟩ <;> simp only [rsvdField, opcodeField, slotField, bits_def, Fin.ofNat] <;> omega

/-- `opcode | s << 8` as a number. -/
theorem opcode_or_slot (op : Nat) (s : Fin 16) (h : op < 256) :
    (BitVec.ofNat 32 op ||| (BitVec.ofNat 32 s.val <<< 8)).toNat = op + 256 * s.val := by
  have hs := s.isLt
  rw [BitVec.toNat_or, BitVec.toNat_shiftLeft, BitVec.toNat_ofNat, BitVec.toNat_ofNat,
    Nat.mod_eq_of_lt (by omega), Nat.mod_eq_of_lt (a := s.val) (by omega), Nat.shiftLeft_eq,
    Nat.mod_eq_of_lt (by omega), Nat.or_comm, Nat.mul_comm, ← Nat.two_pow_add_eq_or_of_lt (i := 8) (by omega)]
  omega

/-- The slot number a command's word carries. -/
def Instr.slotNumber (i : Instr) : Nat := match i.slot? with | none => 0 | some s => s.val

/-- The word of a command as a number. -/
theorem encode_toNat (i : Instr) : (encode i).toNat = i.opcode.toNat + 256 * i.slotNumber := by
  cases i <;> simp only [encode, Instr.slot?, Instr.opcode, Instr.slotNumber] <;>
    first | rfl | exact opcode_or_slot _ _ (by decide)

theorem decodeScalar_eq_ok {s : Fin 16} {i j : Instr} : decodeScalar s i = .ok j ↔ s = 0 ∧ i = j := by
  unfold decodeScalar; split <;> simp_all

theorem decodeBlock_eq_ok {n : Nat} {s : Fin 16} {mk : Fin 16 → Instr} {j : Instr} :
    decodeBlock n s mk = .ok j ↔ s.val < n ∧ mk s = j := by
  unfold decodeBlock; split <;> simp_all

/-- Everything the opcode map accepts. -/
theorem decodeFields_eq_ok {n op : Nat} {s : Fin 16} {j : Instr} (h : decodeFields n op s = .ok j) :
    j.opcode.toNat = op ∧ ((j.slot? = none ∧ s = 0) ∨ (j.slot? = some s ∧ s.val < n)) := by
  unfold decodeFields at h
  split at h; · obtain ⟨hs, rfl⟩ := decodeScalar_eq_ok.1 h; subst_vars; exact ⟨rfl, .inl ⟨rfl, rfl⟩⟩
  split at h; · obtain ⟨hs, rfl⟩ := decodeScalar_eq_ok.1 h; subst_vars; exact ⟨rfl, .inl ⟨rfl, rfl⟩⟩
  split at h; · obtain ⟨hs, rfl⟩ := decodeScalar_eq_ok.1 h; subst_vars; exact ⟨rfl, .inl ⟨rfl, rfl⟩⟩
  split at h; · obtain ⟨hs, rfl⟩ := decodeScalar_eq_ok.1 h; subst_vars; exact ⟨rfl, .inl ⟨rfl, rfl⟩⟩
  split at h; · obtain ⟨hs, rfl⟩ := decodeScalar_eq_ok.1 h; subst_vars; exact ⟨rfl, .inl ⟨rfl, rfl⟩⟩
  split at h; · obtain ⟨hs, rfl⟩ := decodeScalar_eq_ok.1 h; subst_vars; exact ⟨rfl, .inl ⟨rfl, rfl⟩⟩
  split at h; · obtain ⟨hs, rfl⟩ := decodeBlock_eq_ok.1 h; subst_vars; exact ⟨rfl, .inr ⟨rfl, hs⟩⟩
  split at h; · obtain ⟨hs, rfl⟩ := decodeBlock_eq_ok.1 h; subst_vars; exact ⟨rfl, .inr ⟨rfl, hs⟩⟩
  split at h; · obtain ⟨hs, rfl⟩ := decodeBlock_eq_ok.1 h; subst_vars; exact ⟨rfl, .inr ⟨rfl, hs⟩⟩
  split at h; · obtain ⟨hs, rfl⟩ := decodeBlock_eq_ok.1 h; subst_vars; exact ⟨rfl, .inr ⟨rfl, hs⟩⟩
  cases h

end Sys2Proof
end

