-- ==== Sys2Proof/Laws/Fields.lean ====
section
/-! SUPPORT. The fields of float32 and float16 patterns as numbers: a pattern is its three fields, and a packed pattern
reads back its fields (00_scope.md R15). -/

namespace Sys2Proof.Machine

/-! ## Float32 -/

theorem f32Exp_eq (b : Word) : f32Exp b = b.toNat / 2 ^ 23 % 256 := rfl

theorem f32Man_eq (b : Word) : f32Man b = b.toNat % 2 ^ 23 := by simp [f32Man, bits]

theorem f32Sign_eq (b : Word) : f32Sign b = decide (2 ^ 31 ≤ b.toNat) := by
  have := b.isLt
  simp only [f32Sign, bit, BitVec.getLsbD, Nat.testBit_eq_decide_div_mod_eq]
  congr 1; simp; omega

/-- A float32 pattern is its three fields. -/
theorem f32_split (b : Word) :
    b.toNat = (f32Sign b).toNat * 2 ^ 31 + f32Exp b * 2 ^ 23 + f32Man b ∧ f32Exp b < 256 ∧ f32Man b < 2 ^ 23 := by
  have := b.isLt
  rw [f32Exp_eq, f32Man_eq, f32Sign_eq]
  by_cases h : 2 ^ 31 ≤ b.toNat
  · simp only [h, decide_true, Bool.toNat_true]; omega
  · simp only [h, decide_false, Bool.toNat_false]; omega

/-- The fields of a pattern given as a sum of fields. -/
theorem f32_fields {b : Word} {s : Bool} {e m : Nat} (he : e < 256) (hm : m < 2 ^ 23)
    (h : b.toNat = s.toNat * 2 ^ 31 + e * 2 ^ 23 + m) : f32Sign b = s ∧ f32Exp b = e ∧ f32Man b = m := by
  rw [f32Exp_eq, f32Man_eq, f32Sign_eq]
  cases s <;> simp only [Bool.toNat_true, Bool.toNat_false] at h
  · refine ⟨?_, by omega, by omega⟩
    rw [decide_eq_false]; omega
  · refine ⟨?_, by omega, by omega⟩
    rw [decide_eq_true]; omega

theorem f32Pack_toNat {s : Bool} {e m : Nat} (he : e < 256) (hm : m < 2 ^ 23) :
    (f32Pack s e m).toNat = s.toNat * 2 ^ 31 + e * 2 ^ 23 + m := by
  have := Bool.toNat_le s
  simp only [f32Pack, BitVec.toNat_ofNat]; omega

theorem f32Pack_fields {s : Bool} {e m : Nat} (he : e < 256) (hm : m < 2 ^ 23) :
    f32Sign (f32Pack s e m) = s ∧ f32Exp (f32Pack s e m) = e ∧ f32Man (f32Pack s e m) = m :=
  f32_fields he hm (f32Pack_toNat he hm)

theorem f32IsNan_iff (b : Word) : f32IsNan b = true ↔ f32Exp b = 255 ∧ f32Man b ≠ 0 := by simp [f32IsNan]

theorem f32IsNan_false_iff (b : Word) : f32IsNan b = false ↔ ¬ (f32Exp b = 255 ∧ f32Man b ≠ 0) := by
  rw [← f32IsNan_iff]; simp

theorem f32IsInf_iff (b : Word) : f32IsInf b = true ↔ f32Exp b = 255 ∧ f32Man b = 0 := by simp [f32IsInf]

theorem f32IsFinite_iff (b : Word) : f32IsFinite b = true ↔ f32Exp b ≠ 255 := by simp [f32IsFinite]

/-! ## Float16 -/

theorem f16Exp_eq (h : Half) : f16Exp h = h.toNat / 2 ^ 10 % 32 := rfl

theorem f16Man_eq (h : Half) : f16Man h = h.toNat % 2 ^ 10 := by simp [f16Man, bits]

theorem f16Sign_eq (h : Half) : f16Sign h = decide (2 ^ 15 ≤ h.toNat) := by
  have := h.isLt
  simp only [f16Sign, bit, BitVec.getLsbD, Nat.testBit_eq_decide_div_mod_eq]
  congr 1; simp; omega

/-- A float16 pattern is its three fields. -/
theorem f16_split (h : Half) :
    h.toNat = (f16Sign h).toNat * 2 ^ 15 + f16Exp h * 2 ^ 10 + f16Man h ∧ f16Exp h < 32 ∧ f16Man h < 2 ^ 10 := by
  have := h.isLt
  rw [f16Exp_eq, f16Man_eq, f16Sign_eq]
  by_cases h' : 2 ^ 15 ≤ h.toNat
  · simp only [h', decide_true, Bool.toNat_true]; omega
  · simp only [h', decide_false, Bool.toNat_false]; omega

theorem f16_fields {h : Half} {s : Bool} {e m : Nat} (he : e < 32) (hm : m < 2 ^ 10)
    (hh : h.toNat = s.toNat * 2 ^ 15 + e * 2 ^ 10 + m) : f16Sign h = s ∧ f16Exp h = e ∧ f16Man h = m := by
  rw [f16Exp_eq, f16Man_eq, f16Sign_eq]
  cases s <;> simp only [Bool.toNat_true, Bool.toNat_false] at hh
  · refine ⟨?_, by omega, by omega⟩
    rw [decide_eq_false]; omega
  · refine ⟨?_, by omega, by omega⟩
    rw [decide_eq_true]; omega

theorem f16Pack_toNat {s : Bool} {e m : Nat} (he : e < 32) (hm : m < 2 ^ 10) :
    (f16Pack s e m).toNat = s.toNat * 2 ^ 15 + e * 2 ^ 10 + m := by
  have := Bool.toNat_le s
  simp only [f16Pack, BitVec.toNat_ofNat]; omega

theorem f16Pack_fields {s : Bool} {e m : Nat} (he : e < 32) (hm : m < 2 ^ 10) :
    f16Sign (f16Pack s e m) = s ∧ f16Exp (f16Pack s e m) = e ∧ f16Man (f16Pack s e m) = m :=
  f16_fields he hm (f16Pack_toNat he hm)

/-! ## Halves and extensions -/

theorem upperHalf_toNat (b : Word) : (upperHalf b).toNat = b.toNat / 2 ^ 16 := by
  have := b.isLt
  simp only [upperHalf, BitVec.extractLsb'_toNat, Nat.shiftRight_eq_div_pow]; omega

theorem zextHalf_toNat (h : Half) : (zextHalf h).toNat = h.toNat := by
  have := h.isLt
  simp only [zextHalf, BitVec.toNat_setWidth]; omega

theorem operand16_toNat (s : State) : (operand16 s).toNat = s.opa.toNat % 2 ^ 16 := by
  simp [operand16]

/-- Four bytes in a word, as shifted parts. -/
theorem append_four_bytes (a b c d : Byte) :
    a ++ b ++ c ++ d = (d.setWidth 32 ||| c.setWidth 32 <<< 8 ||| b.setWidth 32 <<< 16 ||| a.setWidth 32 <<< 24 :
        Word) := by
  apply BitVec.eq_of_getLsbD_eq
  intro i hi
  simp only [BitVec.getLsbD_append, BitVec.getLsbD_or, BitVec.getLsbD_shiftLeft, BitVec.getLsbD_setWidth]
  by_cases h1 : i < 8
  · simp [h1, show i < 32 by omega, show i<16 by omega, show i < 24 by omega]
  · by_cases h2 : i < 16
    · have : d.getLsbD i = false := BitVec.getLsbD_of_ge _ _ (by omega)
      simp [h1, h2, this, show i < 32 by omega, show i - 8 < 8 by omega, show i - 8 < 32 by omega, show i < 24 by
          omega]
    · by_cases h3 : i < 24
      · have : d.getLsbD i = false := BitVec.getLsbD_of_ge _ _ (by omega)
        have h5 : c.getLsbD (i-8) = false := BitVec.getLsbD_of_ge _ _ (by omega)
        have h6 : i - 8 - 8 = i - 16 := by omega
        simp [h1, h2, h3, this, h5, h6, show i < 32 by omega, show i - 8 < 32 by omega, show ¬ i - 8 < 8 by omega,
            show i - 16 < 8 by omega, show i - 16 < 32 by omega]
      · have : d.getLsbD i = false := BitVec.getLsbD_of_ge _ _ (by omega)
        have h5 : c.getLsbD (i-8) = false := BitVec.getLsbD_of_ge _ _ (by omega)
        have h7 : b.getLsbD (i-16) = false := BitVec.getLsbD_of_ge _ _ (by omega)
        have h6 : i - 8 - 8 = i - 16 := by omega
        have h8 : i - 16 - 8 = i - 24 := by omega
        simp [h1, h2, h3, this, h5, h6, h7, h8, show i < 32 by omega, show i - 8 < 32 by omega, show ¬ i - 8 < 8 by
            omega, show ¬ i - 16 < 8 by omega, show i - 16 < 32 by omega]
        intro; omega

end Sys2Proof.Machine
end

