-- ==== Sys2Proof/Laws/BFloat16.lean ====
section
/-! SUPPORT. `bf16_encode` and `bf16_decode` (41_bfloat16.md) as numbers. -/

namespace Sys2Proof.Machine

/-- Setting bit 6 of a number. -/
theorem or_bit6 (x : Nat) : x ||| 2 ^ 6 = if x / 64 % 2 = 1 then x else x + 64 := by
  split
  · rename_i hh
    have ht : x.testBit 6 = true := by rw [Nat.testBit_eq_decide_div_mod_eq]; simp; omega
    apply Nat.eq_of_testBit_eq; intro j
    rw [Nat.testBit_or, Nat.testBit_two_pow]
    by_cases hj : 6 = j
    · subst hj; rw [ht]; rfl
    · simp [hj]
  · rename_i hh
    have h1 : x = 2 ^ 7 * (x / 128) + x % 64 := by omega
    have h2 : x % 64 < 2 ^ 6 := by omega
    have h3 : x % 64 ||| 2 ^ 6 = 2 ^ 6 * 1 + x % 64 := by rw [Nat.two_pow_add_eq_or_of_lt h2, Nat.or_comm,
        Nat.mul_one]
    have h4 : 2 ^ 7 * (x / 128) ||| x % 64 = 2 ^ 7 * (x / 128) + x % 64 := by
        rw [← Nat.two_pow_add_eq_or_of_lt (i := 7) (by omega)]
    have h5 : x ||| 2 ^ 6 = 2 ^ 7 * (x / 128) + (2 ^ 6 * 1 + x % 64) := by
      calc x ||| 2 ^ 6 = (2 ^ 7 * (x / 128) ||| x % 64) ||| 2 ^ 6 := by rw [h4, ← h1]
        _ = 2 ^ 7 * (x / 128) ||| (2 ^ 6 * 1 + x % 64) := by rw [Nat.or_assoc, h3]
        _ = _ := by rw [← Nat.two_pow_add_eq_or_of_lt (i := 7) (by omega)]
    omega

/-- Keeping bit 15 of a 16-bit number. -/
theorem and_bit15 (x : Nat) (h : x < 2 ^ 16) : x &&& 2 ^ 15 = x / 2 ^ 15 * 2 ^ 15 := by
  rw [Nat.and_two_pow, Nat.testBit_eq_decide_div_mod_eq]
  have : x / 2 ^ 15 = 0 ∨ x / 2 ^ 15 = 1 := by omega
  rcases this with h | h <;> rw [h] <;> rfl

/-- The condition of R134, in numbers. -/
theorem bf16Inc_iff (b : Word) : (0x8000 < bits b 15 0 ∨ (bits b 15 0 = 0x8000 ∧ bit (upperHalf b) 0 = true)) ↔
   (0x8000 < b.toNat % 2 ^ 16 ∨ (b.toNat % 2 ^ 16 = 0x8000 ∧ b.toNat / 2 ^ 16 % 2 = 1)) := by
  simp only [bits, bit, BitVec.getLsbD, upperHalf_toNat, Nat.testBit_eq_decide_div_mod_eq]; simp

/-- `bf16_encode` of a normal or infinite pattern, as a number (R134). -/
theorem bf16Encode_toNat (b : Word) (h0 : f32Exp b ≠ 0) (hn : f32IsNan b = false) : (bf16Encode b).toNat =
    b.toNat / 2 ^ 16 + (if (0x8000 < b.toNat % 2 ^ 16 ∨ (b.toNat % 2 ^ 16 = 0x8000 ∧ b.toNat / 2 ^ 16 % 2 =
        1)) then 1 else 0) := by
  have hb := b.isLt
  have hsp := f32_split b
  have hn' := (f32IsNan_false_iff b).1 hn
  have : b.toNat % 2 ^ 31 < 255 * 2 ^ 23 + 1 := by cases hs : f32Sign b <;> simp only [hs, Bool.toNat_true,
      Bool.toNat_false] at hsp <;> omega
  rw [bf16Encode, if_neg (by simp [hn]), if_neg h0, bf16Inc, BitVec.toNat_add, upperHalf_toNat]
  by_cases h : (0x8000 < b.toNat % 2 ^ 16 ∨ (b.toNat % 2 ^ 16 = 0x8000 ∧ b.toNat / 2 ^ 16 % 2 = 1))
  · rw [if_pos ((bf16Inc_iff b).2 h), if_pos h]; simp; omega
  · rw [if_neg (mt (bf16Inc_iff b).1 h), if_neg h]; simp; omega

/-- `bf16_decode` as a number (R137). -/
theorem bf16Decode_toNat (x : Half) : (bf16Decode x).toNat = x.toNat * 2 ^ 16 := by
  have := x.isLt
  simp only [bf16Decode, BitVec.toNat_shiftLeft, BitVec.toNat_setWidth, Nat.shiftLeft_eq]; omega

end Sys2Proof.Machine
end

