-- ==== Sys2Proof/Laws/State.lean ====
section
/-! SUPPORT. One lemma per field per named update of the state, each true by unfolding, so that no later proof
unfolds an update. -/

namespace Sys2Proof.Machine

section Finish
variable (c : StatusCode) (s : State)

@[simp] theorem finish_cfg : (finish c s).cfg = s.cfg := rfl
@[simp] theorem finish_cmd : (finish c s).cmd = s.cmd := rfl
@[simp] theorem finish_opa : (finish c s).opa = s.opa := rfl
@[simp] theorem finish_res : (finish c s).res = s.res := rfl
@[simp] theorem finish_status : (finish c s).status = c.toWord := rfl
@[simp] theorem finish_len : (finish c s).len = s.len := rfl
@[simp] theorem finish_inArr : (finish c s).inArr = s.inArr := rfl
@[simp] theorem finish_outArr : (finish c s).outArr = s.outArr := rfl
@[simp] theorem finish_slots : (finish c s).slots = s.slots := rfl
@[simp] theorem finish_slot (k : Fin 16) : (finish c s).slot k = s.slot k := rfl
@[simp] theorem finish_nextDraw : (finish c s).nextDraw = s.nextDraw := rfl
@[simp] theorem finish_pending : (finish c s).pending = s.pending := rfl
@[simp] theorem finish_reads : (finish c s).reads = s.reads := rfl

end Finish

section SetBlock
variable (s : State) (k : Fin 16) (b : Option Block)

@[simp] theorem setBlock_cfg : (s.setBlock k b).cfg = s.cfg := rfl
@[simp] theorem setBlock_cmd : (s.setBlock k b).cmd = s.cmd := rfl
@[simp] theorem setBlock_opa : (s.setBlock k b).opa = s.opa := rfl
@[simp] theorem setBlock_res : (s.setBlock k b).res = s.res := rfl
@[simp] theorem setBlock_status : (s.setBlock k b).status = s.status := rfl
@[simp] theorem setBlock_len : (s.setBlock k b).len = s.len := rfl
@[simp] theorem setBlock_inArr : (s.setBlock k b).inArr = s.inArr := rfl
@[simp] theorem setBlock_outArr : (s.setBlock k b).outArr = s.outArr := rfl
@[simp] theorem setBlock_slots :
    (s.setBlock k b).slots = s.slots.set k { block := b, draw := s.nextDraw } := rfl
@[simp] theorem setBlock_nextDraw : (s.setBlock k b).nextDraw = s.nextDraw + 1 := rfl
@[simp] theorem setBlock_pending : (s.setBlock k b).pending = s.pending := rfl
@[simp] theorem setBlock_reads : (s.setBlock k b).reads = s.reads := rfl

end SetBlock

section ResetWith
variable (c : Config) (t : Nat) (p : List HostEvent) (r : List Word)

@[simp] theorem resetWith_cfg : (State.resetWith c t p r).cfg = c := rfl
@[simp] theorem resetWith_cmd : (State.resetWith c t p r).cmd = 0 := rfl
@[simp] theorem resetWith_opa : (State.resetWith c t p r).opa = 0 := rfl
@[simp] theorem resetWith_res : (State.resetWith c t p r).res = 0 := rfl
@[simp] theorem resetWith_status : (State.resetWith c t p r).status = 0 := rfl
@[simp] theorem resetWith_len : (State.resetWith c t p r).len = 0 := rfl
@[simp] theorem resetWith_inArr : (State.resetWith c t p r).inArr = .unwritten t := rfl
@[simp] theorem resetWith_outArr : (State.resetWith c t p r).outArr = .unwritten (t + 1) := rfl
@[simp] theorem resetWith_slots : (State.resetWith c t p r).slots = emptySlots (t + 2) := rfl
@[simp] theorem resetWith_nextDraw : (State.resetWith c t p r).nextDraw = t + 18 := rfl
@[simp] theorem resetWith_pending : (State.resetWith c t p r).pending = p := rfl
@[simp] theorem resetWith_reads : (State.resetWith c t p r).reads = r := rfl

@[simp] theorem resetWith_slot (k : Fin 16) :
    (State.resetWith c t p r).slot k = { block := none, draw := t + 2 + k.val } := by
  simp [State.slot, emptySlots]

end ResetWith

@[simp] theorem withFetchWord_pending (s : State) (nbits w : Nat) :
    (s.withFetchWord nbits w).pending = .write 4 s.cfg.ffcBase (tableWord nbits w) :: s.pending := rfl

@[simp] theorem unwritten_draw (t : Nat) : (ElemArray.unwritten t).draw = t := rfl

@[simp] theorem unwritten_read (t i : Nat) : (ElemArray.unwritten t).read i = Config.freeWord t i := rfl

end Sys2Proof.Machine
end

