-- ==== Sys2Proof/Laws/Ops.lean ====
section
/-! SUPPORT. What the shared operations do: arrays, slots, errors and completion, each said once. -/

namespace Sys2Proof.Machine

/-! ## Element arrays -/

theorem lookup_cons_ite (j a : Nat) (v : Word) (l : List (Nat × Word)) :
    ((a, v) :: l).lookup j = if j = a then some v else l.lookup j := by
  by_cases h : j = a
  · simp [h]
  · have h' : (j == a) = false := by simpa using h
    simp [List.lookup_cons, h, h']

/-- Read after write: the written index gives the word, every other index is left alone. -/
theorem lookup_insertCell (i j : Nat) (w : Word) (l : List (Nat × Word)) :
    (insertCell i w l).lookup j = if j = i then some w else l.lookup j := by
  induction l with
  | nil => simp [insertCell, lookup_cons_ite]
  | cons c rest ih =>
    obtain ⟨a, v⟩ := c
    simp only [insertCell]
    split
    · simp only [lookup_cons_ite]
    · split
      · rename_i h
        simp only [lookup_cons_ite, h]
        split <;> rfl
      · simp only [lookup_cons_ite, ih]
        by_cases h : j = a <;> by_cases h' : j = i <;> simp_all

@[simp] theorem read_write (a : ElemArray) (i j : Nat) (w : Word) :
    (a.write i w).read j = if j = i then w else a.read j := by
  simp only [ElemArray.read, ElemArray.write, lookup_insertCell]
  split <;> simp

@[simp] theorem write_draw (a : ElemArray) (i : Nat) (w : Word) : (a.write i w).draw = a.draw := rfl

theorem mem_insertCell {i : Nat} {w : Word} {l : List (Nat × Word)} {c : Nat × Word}
    (h : c ∈ insertCell i w l) : c = (i, w) ∨ c ∈ l := by
  induction l with
  | nil => simpa [insertCell] using h
  | cons d rest ih =>
    obtain ⟨j, v⟩ := d
    simp only [insertCell] at h
    split at h
    · simpa using h
    · split at h
      · simp only [List.mem_cons] at h ⊢; tauto
      · simp only [List.mem_cons] at h ⊢
        rcases h with h | h
        · tauto
        · rcases ih h with h | h <;> tauto

theorem pairwise_insertCell (i : Nat) (w : Word) (l : List (Nat × Word))
    (h : l.Pairwise fun c d => c.1 < d.1) : (insertCell i w l).Pairwise fun c d => c.1 < d.1 := by
  induction l with
  | nil => simp [insertCell]
  | cons d rest ih =>
    obtain ⟨j, v⟩ := d
    obtain ⟨hj, hrest⟩ := List.pairwise_cons.1 h
    simp only [insertCell]
    split
    · rename_i hlt
      refine List.pairwise_cons.2 ⟨?_, h⟩
      intro c hc
      rcases List.mem_cons.1 hc with rfl | hc
      · exact hlt
      · exact Nat.lt_trans hlt (hj c hc)
    · split
      · subst_vars; exact List.pairwise_cons.2 ⟨hj, hrest⟩
      · refine List.pairwise_cons.2 ⟨?_, ih hrest⟩
        intro c hc
        rcases mem_insertCell hc with rfl | hc
        · show j < i; omega
        · exact hj c hc

/-- A write keeps the canonical form. -/
theorem write_wf {n : Nat} {a : ElemArray} {i : Nat} (w : Word) (h : a.Wf n) (hi : i < n) : (a.write i w).Wf n :=
  ⟨pairwise_insertCell i w a.cells h.1, fun _ hc => (mem_insertCell hc).elim (fun e => e ▸ hi) (h.2 _)⟩

theorem lookup_cellsFrom (ws : List Word) (i j : Nat) :
    (cellsFrom i ws).lookup j = if i ≤ j then ws[j - i]? else none := by
  induction ws generalizing i with
  | nil => simp [cellsFrom]
  | cons w ws ih =>
    simp only [cellsFrom, lookup_cons_ite, ih]
    by_cases h : j = i
    · subst h; simp
    · by_cases h' : i + 1 ≤ j
      · have h0 : j - i = j - (i + 1) + 1 := by omega
        simp [h, h', Nat.le_of_succ_le h', h0]
      · have h0 : ¬ i ≤ j := by omega
        simp [h, h', h0]

theorem mem_cellsFrom {ws : List Word} {i : Nat} {c : Nat × Word} (h : c ∈ cellsFrom i ws) :
    i ≤ c.1 ∧ c.1 < i + ws.length := by
  induction ws generalizing i with
  | nil => simp [cellsFrom] at h
  | cons w ws ih =>
    simp only [cellsFrom, List.mem_cons] at h
    rcases h with rfl | h
    · simp
    · have := ih h; simp; omega

theorem pairwise_cellsFrom (ws : List Word) (i : Nat) : (cellsFrom i ws).Pairwise fun c d => c.1 < d.1 := by
  induction ws generalizing i with
  | nil => simp [cellsFrom]
  | cons w ws ih =>
    refine List.pairwise_cons.2 ⟨fun c hc => ?_, ih (i + 1)⟩
    have := mem_cellsFrom hc; show i < c.1; omega

theorem lookup_filter_ge (l : List (Nat × Word)) (n j : Nat) (h : n ≤ j) :
    (l.filter fun c => decide (n ≤ c.1)).lookup j = l.lookup j := by
  induction l with
  | nil => rfl
  | cons c rest ih =>
    obtain ⟨a, v⟩ := c
    by_cases ha : n ≤ a
    · simp only [List.filter_cons, ha, decide_true, if_true, lookup_cons_ite, ih]
    · have hne : ¬ j = a := by omega
      simp [ha, lookup_cons_ite, ih, hne]

/-- Read after a prefix write: the words at the first indexes, everything else left alone. -/
theorem read_writePrefix (a : ElemArray) (ws : List Word) (j : Nat) :
    (a.writePrefix ws).read j = if h : j < ws.length then ws[j] else a.read j := by
  simp only [ElemArray.read, ElemArray.writePrefix, List.lookup_append, lookup_cellsFrom, Nat.zero_le, if_true,
    Nat.sub_zero]
  by_cases h : j < ws.length
  · simp [h]
  · rw [lookup_filter_ge _ _ _ (by omega)]
    simp [h]

@[simp] theorem writePrefix_draw (a : ElemArray) (ws : List Word) : (a.writePrefix ws).draw = a.draw := rfl

/-- A prefix write keeps the canonical form. -/
theorem writePrefix_wf {n : Nat} {a : ElemArray} {ws : List Word} (h : a.Wf n) (hn : ws.length ≤ n) :
    (a.writePrefix ws).Wf n := by
  refine ⟨?_, ?_⟩
  · refine List.pairwise_append.2 ⟨pairwise_cellsFrom ws 0, h.1.filter _, ?_⟩
    intro c hc d hd
    have := mem_cellsFrom hc
    have := (List.mem_filter.1 hd).2
    simp only [decide_eq_true_eq] at this
    omega
  · intro c hc
    rcases List.mem_append.1 hc with hc | hc
    · have := mem_cellsFrom hc; omega
    · exact h.2 c (List.mem_filter.1 hc).1

/-- Writing the same prefix twice is writing it once. -/
theorem writePrefix_writePrefix (a : ElemArray) (ws : List Word) :
    (a.writePrefix ws).writePrefix ws = a.writePrefix ws := by
  simp only [ElemArray.writePrefix, List.filter_append, List.filter_filter, Bool.and_self]
  have : (cellsFrom 0 ws).filter (fun c => decide (ws.length ≤ c.1)) = [] := by
    simp only [List.filter_eq_nil_iff, decide_eq_true_eq]
    intro c hc; have := mem_cellsFrom hc; omega
  rw [this, List.nil_append]

theorem unwritten_wf (n t : Nat) : (ElemArray.unwritten t).Wf n :=
  ⟨by simp [ElemArray.unwritten], by simp [ElemArray.unwritten]⟩

/-! ## Slots -/

@[simp] theorem slot_setBlock (s : State) (k j : Fin 16) (b : Option Block) :
    (s.setBlock k b).slot j = if j = k then { block := b, draw := s.nextDraw } else s.slot j := by
  simp only [State.slot, setBlock_slots]
  by_cases h : j = k
  · subst h; simp
  · have h' : k.val ≠ j.val := fun e => h (Fin.ext e.symm)
    simp [h, h']

theorem valid_iff (sl : Slot) : sl.valid = true ↔ ∃ b, sl.block = some b := by
  simp [Slot.valid, Option.isSome_iff_exists]

theorem not_valid_iff (sl : Slot) : sl.valid = false ↔ sl.block = none := by
  simp [Slot.valid]

/-- A code of a live block is the code its encode stored. -/
theorem code_of_block {sl : Slot} {b : Block} (h : sl.block = some b) (i : Nat) (hi : i < b.codes.length) :
    sl.code i = b.codes[i] := by
  simp [Slot.code, Slot.codes, h, hi]

/-- A code no encode stored is the free value of the slot's tag: every code of a slot without a block, and those beyond
BLEN of a live one. -/
theorem code_beyond_codes {sl : Slot} (i : Nat) (hi : sl.codes.length ≤ i) :
    sl.code i = Config.freeCode sl.draw i := by
  simp [Slot.code, hi]

/-! ## Errors and completion -/

@[simp] theorem raise_eq_next (c : StatusCode) (s t : State) :
    raise c s = .next t ↔ finish c s = t := by simp [raise]

@[simp] theorem complete_eq_next (r : Word) (s t : State) :
    complete r s = .next t ↔ finish .ok { s with res := r } = t := by simp [complete]

@[simp] theorem toWord_ok : StatusCode.toWord .ok = 0 := rfl
@[simp] theorem toWord_invalidSize : StatusCode.toWord .invalidSize = 1 := rfl
@[simp] theorem toWord_allocFail : StatusCode.toWord .allocFail = 2 := rfl
@[simp] theorem toWord_noBlock : StatusCode.toWord .noBlock = 3 := rfl
@[simp] theorem toWord_illegalCmd : StatusCode.toWord .illegalCmd = 4 := rfl

theorem toWord_toNat_le (c : StatusCode) : c.toWord.toNat ≤ 4 := by cases c <;> decide

/-- A code is 0 exactly on success. -/
theorem toWord_eq_zero (c : StatusCode) : c.toWord = 0 ↔ c = .ok := by cases c <;> decide

end Sys2Proof.Machine
end

