-- ==== Sys2Proof/Laws/Exec.lean ====
section
/-! SUPPORT. Everything a command can do, said once: what an encode answers, what a command on a live slot answers, and
the five ways a command completes. Later proofs cite these and unfold no meaning. -/

namespace Sys2Proof.Machine

/-! ## Block commands -/

theorem onSlot_of_lt {k : Fin 16} {s : State} (h : k.val < s.cfg.numSlots) (o : Host.Outcome State Fault Refusal) :
    onSlot k s o = o := by simp [onSlot, h]

theorem onSlot_of_le {k : Fin 16} {s : State} (h : s.cfg.numSlots ≤ k.val) (o : Host.Outcome State Fault Refusal) :
    onSlot k s o = .next (finish .illegalCmd s) := by
  simp [onSlot, Nat.not_lt.2 h, raise]

/-- The block an encode into slot `k` of state `s` writes. -/
def newBlock (kind : BlockKind) (s : State) : Block :=
  encodedBlock s.cfg kind s.nextDraw s.len (blockValues s s.len.toNat)

/-- The state a successful encode leaves. -/
def encoded (kind : BlockKind) (k : Fin 16) (s : State) : State :=
  finish .ok { s.setBlock k (some (newBlock kind s)) with res := zextHalf (newBlock kind s).scale }

theorem encodeInto_of_le {kind : BlockKind} {k : Fin 16} {s : State} (h : s.cfg.numSlots ≤ k.val) :
    encodeInto kind k s = .next (finish .illegalCmd s) := onSlot_of_le h _

theorem encodeInto_of_zero {kind : BlockKind} {k : Fin 16} {s : State} (h : k.val < s.cfg.numSlots)
    (hl : s.len = 0) : encodeInto kind k s = .next (finish .invalidSize s) := by
  rw [encodeInto, onSlot_of_lt h]; simp [hl, raise]

theorem encodeInto_of_large {kind : BlockKind} {k : Fin 16} {s : State} (h : k.val < s.cfg.numSlots)
    (hl : s.len ≠ 0) (hn : s.cfg.nMax < s.len.toNat) : encodeInto kind k s = .next (finish .allocFail s) := by
  rw [encodeInto, onSlot_of_lt h, if_neg hl, if_pos hn]; rfl

theorem encodeInto_of_live {kind : BlockKind} {k : Fin 16} {s : State} (h : k.val < s.cfg.numSlots)
    (hl : s.len ≠ 0) (hn : s.len.toNat ≤ s.cfg.nMax) (hv : (s.slot k).valid = true) :
    encodeInto kind k s = .next (finish .allocFail s) := by
  rw [encodeInto, onSlot_of_lt h, if_neg hl, if_neg (Nat.not_lt.2 hn), if_pos hv]; rfl

theorem encodeInto_of_ready {kind : BlockKind} {k : Fin 16} {s : State} (h : k.val < s.cfg.numSlots)
    (hl : s.len ≠ 0) (hn : s.len.toNat ≤ s.cfg.nMax) (hv : (s.slot k).valid = false) :
    encodeInto kind k s = .next (encoded kind k s) := by
  rw [encodeInto, onSlot_of_lt h, if_neg hl, if_neg (Nat.not_lt.2 hn), hv]; rfl

/-- Everything an encode can answer. -/
theorem encodeInto_cases (kind : BlockKind) (k : Fin 16) (s : State) :
    (s.cfg.numSlots ≤ k.val ∧ encodeInto kind k s = .next (finish .illegalCmd s)) ∨
    (k.val < s.cfg.numSlots ∧ s.len = 0 ∧ encodeInto kind k s = .next (finish .invalidSize s)) ∨
    (k.val < s.cfg.numSlots ∧ s.len ≠ 0 ∧ (s.cfg.nMax < s.len.toNat ∨ (s.slot k).valid = true) ∧
      encodeInto kind k s = .next (finish .allocFail s)) ∨
    (k.val < s.cfg.numSlots ∧ s.len ≠ 0 ∧ s.len.toNat ≤ s.cfg.nMax ∧ (s.slot k).valid = false ∧
      encodeInto kind k s = .next (encoded kind k s)) := by
  by_cases h : k.val < s.cfg.numSlots
  · by_cases hl : s.len = 0
    · exact .inr (.inl ⟨h, hl, encodeInto_of_zero h hl⟩)
    · by_cases hn : s.cfg.nMax < s.len.toNat
      · exact .inr (.inr (.inl ⟨h, hl, .inl hn, encodeInto_of_large h hl hn⟩))
      · cases hv : (s.slot k).valid with
        | true => exact .inr (.inr (.inl ⟨h, hl, .inr rfl, encodeInto_of_live h hl (Nat.not_lt.1 hn) hv⟩))
        | false => exact .inr (.inr (.inr ⟨h, hl, Nat.not_lt.1 hn, rfl,
            encodeInto_of_ready h hl (Nat.not_lt.1 hn) hv⟩))
  · exact .inl ⟨Nat.not_lt.1 h, encodeInto_of_le (Nat.not_lt.1 h)⟩

/-- The state a successful Q_DEC leaves. -/
def decoded (k : Fin 16) (b : Block) (s : State) : State :=
  finish .ok { s with outArr := s.outArr.writePrefix (decodedWords s k b), res := b.blen }

/-- The state a successful Q_DESTROY leaves. -/
def destroyed (k : Fin 16) (s : State) : State := finish .ok (s.setBlock k none)

/-- Everything a command on a live slot can answer. -/
theorem onLiveSlot_cases (k : Fin 16) (s : State) (act : Block → Host.Outcome State Fault Refusal) :
    (s.cfg.numSlots ≤ k.val ∧ onLiveSlot k s act = .next (finish .illegalCmd s)) ∨
    (k.val < s.cfg.numSlots ∧ (s.slot k).block = none ∧ onLiveSlot k s act = .next (finish .noBlock s)) ∨
    (∃ b, k.val < s.cfg.numSlots ∧ (s.slot k).block = some b ∧ onLiveSlot k s act = act b) := by
  by_cases h : k.val < s.cfg.numSlots
  · cases hb : (s.slot k).block with
    | none => exact .inr (.inl ⟨h, rfl, by rw [onLiveSlot, onSlot_of_lt h, hb]; rfl⟩)
    | some b => exact .inr (.inr ⟨b, h, rfl, by rw [onLiveSlot, onSlot_of_lt h, hb]⟩)
  · exact .inl ⟨Nat.not_lt.1 h, onSlot_of_le (Nat.not_lt.1 h) _⟩

theorem exec_qDec_of_live {k : Fin 16} {s : State} {b : Block} (h : k.val < s.cfg.numSlots)
    (hb : (s.slot k).block = some b) : exec (.qDec k) s = .next (decoded k b s) := by
  show onLiveSlot k s _ = _
  rw [onLiveSlot, onSlot_of_lt h, hb]; rfl

theorem exec_qDec_of_empty {k : Fin 16} {s : State} (h : k.val < s.cfg.numSlots) (hb : (s.slot k).block = none) :
    exec (.qDec k) s = .next (finish .noBlock s) := by
  show onLiveSlot k s _ = _
  rw [onLiveSlot, onSlot_of_lt h, hb]; rfl

theorem exec_qDestroy_of_live {k : Fin 16} {s : State} {b : Block} (h : k.val < s.cfg.numSlots)
    (hb : (s.slot k).block = some b) : exec (.qDestroy k) s = .next (destroyed k s) := by
  show onLiveSlot k s _ = _
  rw [onLiveSlot, onSlot_of_lt h, hb]; rfl

theorem exec_qDestroy_of_empty {k : Fin 16} {s : State} (h : k.val < s.cfg.numSlots)
    (hb : (s.slot k).block = none) : exec (.qDestroy k) s = .next (finish .noBlock s) := by
  show onLiveSlot k s _ = _
  rw [onLiveSlot, onSlot_of_lt h, hb]; rfl

/-! ## All commands -/

theorem exec_encodeCmd (kind : BlockKind) (k : Fin 16) (s : State) :
    exec (encodeCmd kind k) s = encodeInto kind k s := by cases kind <;> rfl

/-- Everything a command can do to a state: an error, with its code and cause; a scalar result; an encoded block; a
decoded block; a released block. -/
inductive Completion (s : State) : Instr → State → Prop where
  | illegalSlot {i : Instr} {k : Fin 16} (hi : i.slot? = some k) (h : s.cfg.numSlots ≤ k.val) :
      Completion s i (finish .illegalCmd s)
  | invalidSize (kind : BlockKind) {k : Fin 16} (h : k.val < s.cfg.numSlots) (hl : s.len = 0) :
      Completion s (encodeCmd kind k) (finish .invalidSize s)
  | allocFail (kind : BlockKind) {k : Fin 16} (h : k.val < s.cfg.numSlots) (hl : s.len ≠ 0)
      (hv : s.cfg.nMax < s.len.toNat ∨ (s.slot k).valid = true) :
      Completion s (encodeCmd kind k) (finish .allocFail s)
  | noBlock {i : Instr} {k : Fin 16} (hi : i = .qDec k ∨ i = .qDestroy k) (h : k.val < s.cfg.numSlots)
      (hb : (s.slot k).block = none) : Completion s i (finish .noBlock s)
  | scalar {i : Instr} (hi : i.slot? = none) (r : Word) : Completion s i (finish .ok { s with res := r })
  | encoded (kind : BlockKind) {k : Fin 16} (h : k.val < s.cfg.numSlots) (hl : s.len ≠ 0)
      (hn : s.len.toNat ≤ s.cfg.nMax) (hv : (s.slot k).valid = false) :
      Completion s (encodeCmd kind k) (encoded kind k s)
  | decoded {k : Fin 16} {b : Block} (h : k.val < s.cfg.numSlots) (hb : (s.slot k).block = some b) :
      Completion s (.qDec k) (decoded k b s)
  | destroyed {k : Fin 16} {b : Block} (h : k.val < s.cfg.numSlots) (hb : (s.slot k).block = some b) :
      Completion s (.qDestroy k) (destroyed k s)

theorem encodeInto_completes (kind : BlockKind) (k : Fin 16) (s : State) :
    ∃ t, exec (encodeCmd kind k) s = .next t ∧ Completion s (encodeCmd kind k) t := by
  rw [exec_encodeCmd]
  rcases encodeInto_cases kind k s with ⟨h, e⟩ | ⟨h, hl, e⟩ | ⟨h, hl, hv, e⟩ | ⟨h, hl, hn, hv, e⟩
  · exact ⟨_, e, .illegalSlot (by cases kind <;> rfl) h⟩
  · exact ⟨_, e, .invalidSize kind h hl⟩
  · exact ⟨_, e, .allocFail kind h hl hv⟩
  · exact ⟨_, e, .encoded kind h hl hn hv⟩

/-- What every command does, in every state. -/
theorem exec_completes (i : Instr) (s : State) : ∃ t, exec i s = .next t ∧ Completion s i t := by
  cases i with
  | f32ToBits => exact ⟨_, rfl, .scalar rfl _⟩
  | bitsToF32 => exact ⟨_, rfl, .scalar rfl _⟩
  | bf16Enc => exact ⟨_, rfl, .scalar rfl _⟩
  | bf16Dec => exact ⟨_, rfl, .scalar rfl _⟩
  | fp16Enc => exact ⟨_, rfl, .scalar rfl _⟩
  | fp16Dec => exact ⟨_, rfl, .scalar rfl _⟩
  | q8Enc k => exact encodeInto_completes .q8 k s
  | q4Enc k => exact encodeInto_completes .q4 k s
  | qDec k =>
    rcases onLiveSlot_cases k s
      (fun b => complete b.blen { s with outArr := s.outArr.writePrefix (decodedWords s k b) }) with
      ⟨h, e⟩ | ⟨h, hb, e⟩ | ⟨b, h, hb, e⟩
    · exact ⟨_, e, .illegalSlot rfl h⟩
    · exact ⟨_, e, .noBlock (.inl rfl) h hb⟩
    · exact ⟨_, e, .decoded h hb⟩
  | qDestroy k =>
    rcases onLiveSlot_cases k s (fun _ => .next (finish .ok (s.setBlock k none))) with
      ⟨h, e⟩ | ⟨h, hb, e⟩ | ⟨b, h, hb, e⟩
    · exact ⟨_, e, .illegalSlot rfl h⟩
    · exact ⟨_, e, .noBlock (.inr rfl) h hb⟩
    · exact ⟨_, e, .destroyed h hb⟩

/-- The inversion lemma of `exec`. -/
theorem completion_of_exec {i : Instr} {s t : State} (h : exec i s = .next t) : Completion s i t := by
  obtain ⟨u, hu, hc⟩ := exec_completes i s
  rw [h] at hu
  exact (Host.Outcome.next.inj hu) ▸ hc

end Sys2Proof.Machine
end

