-- ==== Sys2Proof/Laws/Float16.lean ====
section
/-! SUPPORT. `fp16_encode` and `fp16_decode` (42_float16.md) by the exponent field of their operand. -/

namespace Sys2Proof.Machine

/-! ## Encode -/

/-- OR-ing in the implicit leading bit adds it. -/
theorem or_hidden {m : Nat} (h : m < 2 ^ 23) : m ||| 0x800000 = 2 ^ 23 + m := by
  have := Nat.two_pow_add_eq_or_of_lt (i := 23) h 1
  rw [Nat.or_comm]; exact this.symm

theorem f16Rebias_eq (b : Word) : f16Rebias b = (f32Exp b : Int) - 127 + 15 := rfl

/-- R151. -/
theorem fp16Encode_zero (fill : BitVec 10) (b : Word) (h : f32Exp b < 102) : fp16Encode fill b =
    f16Pack (f32Sign b) 0 0 := by
  have r := f16Rebias_eq b
  simp only [fp16Encode]; rw [if_pos (show f16Rebias b < -10 by omega)]

/-- R152. -/
theorem fp16Encode_subnormal (fill : BitVec 10) (b : Word) (h : 102 ≤ f32Exp b) (h' : f32Exp b ≤ 112) :
    fp16Encode fill b = f16Pack (f32Sign b) 0 ((2 ^ 23 + f32Man b) / 2 ^ (126 - f32Exp b)) := by
  have r := f16Rebias_eq b
  simp only [fp16Encode]; rw [if_neg (show ¬ f16Rebias b < -10 by omega), if_pos (show f16Rebias b ≤ 0 by omega)]
  rw [or_hidden (f32_split b).2.2, ← Nat.shiftRight_add, Nat.shiftRight_eq_div_pow]
  congr 3; omega

/-- R155. -/
theorem fp16Encode_normal (fill : BitVec 10) (b : Word) (h : 113 ≤ f32Exp b) (h' : f32Exp b ≤ 142) :
    fp16Encode fill b = f16Pack (f32Sign b) (f32Exp b - 112) (f32Man b / 2 ^ 13) := by
  have r := f16Rebias_eq b
  simp only [fp16Encode]; rw [if_neg (show ¬ f16Rebias b < -10 by omega), if_neg (show ¬ f16Rebias b ≤ 0 by omega),
      if_neg (show ¬ f32Exp b = 255 by omega), if_neg (show ¬ 30 < f16Rebias b by omega)]
  congr 1; omega

/-- R154. -/
theorem fp16Encode_overflow (fill : BitVec 10) (b : Word) (h : 143 ≤ f32Exp b) (h' : f32Exp b ≤ 254) :
    fp16Encode fill b = f16Pack (f32Sign b) 31 0 := by
  have r := f16Rebias_eq b
  simp only [fp16Encode]; rw [if_neg (show ¬ f16Rebias b < -10 by omega), if_neg (show ¬ f16Rebias b ≤ 0 by omega),
      if_neg (show ¬ f32Exp b = 255 by omega), if_pos (show 30 < f16Rebias b by omega)]

/-- R153. -/
theorem fp16Encode_top (fill : BitVec 10) (b : Word) (h : f32Exp b = 255) :
    fp16Encode fill b = f16Pack (f32Sign b) 31 (if f32Man b = 0 then 0 else f16NanMan fill b) := by
  have r := f16Rebias_eq b
  simp only [fp16Encode]; rw [if_neg (show ¬ f16Rebias b < -10 by omega), if_neg (show ¬ f16Rebias b ≤ 0 by omega),
      if_pos h]

/-- The mantissa of R152 fits its field. -/
theorem fp16_subnormal_lt (b : Word) (h : 102 ≤ f32Exp b) (h' : f32Exp b ≤ 112) : (2 ^ 23 +
    f32Man b) / 2 ^ (126 - f32Exp b) < 2 ^ 10 := by
  have := (f32_split b).2.2
  have h14 : 2 ^ 14 ≤ 2 ^ (126 - f32Exp b) := Nat.pow_le_pow_right (by decide) (by omega)
  rw [Nat.div_lt_iff_lt_mul (by positivity)]; nlinarith

/-- The mantissa of R153 fits its field. -/
theorem f16NanMan_lt (fill : BitVec 10) (b : Word) : f16NanMan fill b < 2 ^ 10 := by
  have := (f32_split b).2.2
  have := fill.isLt
  unfold f16NanMan; split <;> omega

/-! ## Decode -/

/-- The normalising shift of R158, for a nonzero subnormal mantissa. -/
theorem subnormal_shift (m : Nat) (h0 : m ≠ 0) (h : m < 2 ^ 10) :
    ∀ k, k = 10 - Nat.log2 m →
    ((m <<< k) &&& 0x3FF) <<< 13 = (m * 2 ^ k - 2 ^ 10) * 2 ^ 13 ∧ 2 ^ 10 ≤ m * 2 ^ k ∧ m * 2 ^ k < 2 ^ 11 ∧ 1 ≤ k ∧
        k ≤ 10 := by
  intro k hk
  have h1 : 2 ^ (Nat.log2 m) ≤ m := Nat.log2_self_le h0
  have h2 : m < 2 ^ (Nat.log2 m + 1) := Nat.lt_log2_self
  have h3 : Nat.log2 m < 10 := by
    by_contra hc
    have : 2 ^ 10 ≤ 2 ^ (Nat.log2 m) := Nat.pow_le_pow_right (by decide) (by omega)
    omega
  have e1 : 2 ^ (Nat.log2 m) * 2 ^ k = 2 ^ 10 := by rw [← Nat.pow_add]; congr 1; omega
  have e2 : 2 ^ (Nat.log2 m + 1) * 2 ^ k = 2 ^ 11 := by rw [← Nat.pow_add]; congr 1; omega
  have a : 2 ^ 10 ≤ m * 2 ^ k := by rw [← e1]; exact Nat.mul_le_mul_right _ h1
  have b : m * 2 ^ k < 2 ^ 11 := by rw [← e2]; exact Nat.mul_lt_mul_of_pos_right h2 (by positivity)
  have k1 : 1 ≤ k := by omega
  have k2 : k ≤ 10 := by omega
  clear hk e1 e2 h1 h2 h3
  refine And.intro ?_ (And.intro a (And.intro b (And.intro k1 k2)))
  rw [Nat.shiftLeft_eq, Nat.shiftLeft_eq, show (0x3FF:Nat) = 2 ^ 10 - 1 from rfl, Nat.and_two_pow_sub_one_eq_mod]
  have : m * 2 ^ k % 2 ^ 10 = m * 2 ^ k - 2 ^ 10 := by omega
  rw [this]

/-- R157. -/
theorem fp16Decode_zero (h : Half) (e0 : f16Exp h = 0) (m0 : f16Man h = 0) : fp16Decode h =
    f32Pack (f16Sign h) 0 0 := by
  simp only [fp16Decode]; rw [if_pos e0, if_pos m0]

/-- R158. -/
theorem fp16Decode_subnormal (h : Half) (e0 : f16Exp h = 0) (m0 : f16Man h ≠ 0) : fp16Decode h =
    f32Pack (f16Sign h) (113 - (10 - Nat.log2 (f16Man h))) ((f16Man h * 2 ^ (10 - Nat.log2 (f16Man h)) - 2 ^ 10) * 2 ^ 13) := by
  simp only [fp16Decode]; rw [if_pos e0, if_neg m0, (subnormal_shift _ m0 (f16_split h).2.2 _ rfl).1]

/-- R159. -/
theorem fp16Decode_top (h : Half) (e0 : f16Exp h = 31) : fp16Decode h =
    f32Pack (f16Sign h) 255 (f16Man h * 2 ^ 13) := by
  simp only [fp16Decode]; rw [if_neg (by omega), if_pos e0, Nat.shiftLeft_eq]

/-- R160. -/
theorem fp16Decode_normal (h : Half) (e0 : f16Exp h ≠ 0) (e1 : f16Exp h ≠ 31) : fp16Decode h =
    f32Pack (f16Sign h) (f16Exp h + 112) (f16Man h * 2 ^ 13) := by
  simp only [fp16Decode]; rw [if_neg e0, if_neg e1, Nat.shiftLeft_eq]

/-- The fields of a decoded pattern, in the four cases. -/
theorem fp16Decode_fields (h : Half) : f32Sign (fp16Decode h) = f16Sign h ∧
   ((f16Exp h = 0 ∧ f16Man h = 0 ∧ f32Exp (fp16Decode h) = 0 ∧ f32Man (fp16Decode h) = 0) ∨
    (∃ k, f16Exp h = 0 ∧ f16Man h ≠ 0 ∧ 1 ≤ k ∧ k ≤ 10 ∧ 2 ^ 10 ≤ f16Man h * 2 ^ k ∧ f16Man h * 2 ^ k < 2 ^ 11 ∧
        f32Exp (fp16Decode h) = 113 - k ∧ f32Man (fp16Decode h) = (f16Man h * 2 ^ k - 2 ^ 10) * 2 ^ 13) ∨
    (f16Exp h = 31 ∧ f32Exp (fp16Decode h) = 255 ∧ f32Man (fp16Decode h) = f16Man h * 2 ^ 13) ∨
    (f16Exp h ≠ 0 ∧ f16Exp h ≠ 31 ∧ f32Exp (fp16Decode h) = f16Exp h + 112 ∧ f32Man (fp16Decode h) =
        f16Man h * 2 ^ 13)) := by
  have sp := f16_split h
  by_cases e0 : f16Exp h = 0
  · by_cases m0 : f16Man h = 0
    · rw [fp16Decode_zero h e0 m0]
      have := f32Pack_fields (s := f16Sign h) (e := 0) (m := 0) (by omega) (by omega)
      exact ⟨this.1, .inl ⟨e0, m0, this.2.1, this.2.2⟩⟩
    · have d := subnormal_shift _ m0 sp.2.2 _ rfl
      rw [fp16Decode_subnormal h e0 m0]
      generalize 10 - Nat.log2 (f16Man h) = k at d ⊢
      have := f32Pack_fields (s := f16Sign h) (e := 113 - k) (m := (f16Man h * 2 ^ k - 2 ^ 10) * 2 ^ 13) (by
          omega) (by omega)
      exact ⟨this.1, .inr (.inl ⟨k, e0, m0, d.2.2.2.1, d.2.2.2.2, d.2.1, d.2.2.1, this.2.1, this.2.2⟩)⟩
  · by_cases e1 : f16Exp h = 31
    · rw [fp16Decode_top h e1]
      have := f32Pack_fields (s := f16Sign h) (e := 255) (m := f16Man h * 2 ^ 13) (by omega) (by omega)
      exact ⟨this.1, .inr (.inr (.inl ⟨e1, this.2.1, this.2.2⟩))⟩
    · rw [fp16Decode_normal h e0 e1]
      have := f32Pack_fields (s := f16Sign h) (e := f16Exp h + 112) (m := f16Man h * 2 ^ 13) (by omega) (by omega)
      exact ⟨this.1, .inr (.inr (.inr ⟨e0, e1, this.2.1, this.2.2⟩))⟩

end Sys2Proof.Machine
end

