-- ==== Sys2Proof/Laws/Fp32.lean ====
section
/-! SUPPORT. Binary32 rounding (00_scope.md R19) and integer rounding (R20) in terms of the exact value. Powers of two
above `2 ^ 256` are avoided: Lean does not evaluate them. -/

namespace Sys2Proof.Machine

/-! ## Rounding to an integer -/

/-- The rounded integer is within half of the exact quotient, and even in a tie. -/
theorem roundNearestEven_spec {num den : Nat} (hd : 0 < den) :
    2 * (roundNearestEven num den * den) ≤ 2 * num + den ∧ 2 * num ≤ 2 * (roundNearestEven num den * den) + den ∧
    (2 * (roundNearestEven num den * den) = 2 * num + den ∨ 2 * num = 2 * (roundNearestEven num den * den) + den →
        roundNearestEven num den % 2 = 0) := by
  have h1 := Nat.div_add_mod num den
  have h2 := Nat.mod_lt num hd
  simp only [roundNearestEven]
  rw [Nat.mul_comm] at h1
  generalize num / den = q at *
  generalize num % den = r at *
  split
  · rename_i h; rw [Nat.add_mul]; refine ⟨by omega, by omega, fun h3 => by omega⟩
  · rename_i h; refine ⟨by omega, by omega, fun h3 => by omega⟩

/-- The same for a tie away from zero. -/
theorem roundMag_away_spec (m : Nat) : let c := roundMag .away m; 2 * m < 2 * (c * 2 ^ 149) + 2 ^ 149 ∧
    2 * (c * 2 ^ 149) ≤ 2 * m + 2 ^ 149 := by
  simp only [roundMag]; omega

/-- A clamped code is in the range. -/
theorem clamp_range (c lo hi : Int) (h : lo ≤ hi) : lo ≤ clampInt c lo hi ∧ clampInt c lo hi ≤ hi := by
  unfold clampInt; split
  · omega
  · split <;> omega

/-- `clamp` as a maximum of a minimum. -/
theorem clampInt_eq (c lo hi : Int) (h : lo ≤ hi) : clampInt c lo hi = max lo (min c hi) := by
  unfold clampInt; split
  · omega
  · split <;> omega

/-! ## The significand -/

/-- How the last place compares with the exact value. -/
theorem ulpShift_spec (num : Nat) {den : Nat} (hd : 0 < den) :
    num < 2 ^ 24 * (den * 2 ^ ulpShift num den) ∧ (ulpShift num den ≠ 0 →
        2 ^ 23 * (den * 2 ^ ulpShift num den) ≤ num) := by
  have key : ∀ a, num / den < a ↔ num < a * den := fun a => Nat.div_lt_iff_lt_mul hd
  have l2 : num / den < 2 ^ (Nat.log2 (num / den) + 1) := Nat.lt_log2_self
  have l3 : num / den < 2 ^ (ulpShift num den + 24) := by
    refine lt_of_lt_of_le l2 (Nat.pow_le_pow_right (by decide) ?_); unfold ulpShift; omega
  refine ⟨?_, fun h => ?_⟩
  · rw [key] at l3
    rw [Nat.pow_add] at l3; linarith [Nat.mul_comm (2 ^ ulpShift num den) (2 ^ 24),
        Nat.mul_assoc (2 ^ 24) den (2 ^ ulpShift num den), l3,
            Nat.mul_right_comm (2 ^ ulpShift num den) (2 ^ 24) den,
                Nat.mul_comm (2 ^ ulpShift num den * den) (2 ^ 24), Nat.mul_comm (2 ^ ulpShift num den) den]
  · have h0 : num / den ≠ 0 := by intro e; apply h; unfold ulpShift; rw [e]; rfl
    have l1 : 2 ^ (Nat.log2 (num / den)) ≤ num / den := Nat.log2_self_le h0
    have e : Nat.log2 (num / den) = ulpShift num den + 23 := by unfold ulpShift at *; omega
    rw [e, Nat.le_div_iff_mul_le hd, Nat.pow_add] at l1
    calc 2 ^ 23 * (den * 2 ^ ulpShift num den) = 2 ^ ulpShift num den * 2 ^ 23 * den := by ring
      _ ≤ num := l1

/-- The rounded significand is at most `2 ^ 24`, and at least `2 ^ 23` above the lowest last place. -/
theorem significand_spec (num : Nat) {den : Nat} (hd : 0 < den) :
    roundNearestEven num (den * 2 ^ ulpShift num den) ≤ 2 ^ 24 ∧ (ulpShift num den ≠ 0 →
        2 ^ 23 ≤ roundNearestEven num (den * 2 ^ ulpShift num den)) := by
  obtain ⟨u1, u2⟩ := ulpShift_spec num hd
  have hD : 0 < den * 2 ^ ulpShift num den := by positivity
  obtain ⟨a, b, c⟩ := roundNearestEven_spec (num := num) hD
  generalize den * 2 ^ ulpShift num den = D at *
  generalize roundNearestEven num D = r at *
  refine ⟨?_, fun h => ?_⟩
  · by_contra hc
    have : (2 ^ 24 + 1) * D ≤ r * D := Nat.mul_le_mul_right _ (by omega)
    omega
  · by_contra hc
    have : (r + 1) * D ≤ 2 ^ 23 * D := Nat.mul_le_mul_right _ (by omega)
    have := u2 h
    rw [Nat.add_mul] at *
    omega

/-! ## The result -/

theorem fl32Mag_le (num den : Nat) : fl32Mag num den ≤ 255 * 2 ^ 23 := by unfold fl32Mag; exact Nat.min_le_right _ _

theorem fl32_toNat (s : Bool) (num den : Nat) : (fl32 s num den).toNat = s.toNat * 2 ^ 31 + fl32Mag num den := by
  have := fl32Mag_le num den; have := Bool.toNat_le s
  simp only [fl32, BitVec.toNat_ofNat]; omega

/-- The fields of a result. -/
theorem fl32_fields (s : Bool) (num den : Nat) : f32Sign (fl32 s num den) = s ∧ f32Exp (fl32 s num den) =
    fl32Mag num den / 2 ^ 23 ∧ f32Man (fl32 s num den) = fl32Mag num den % 2 ^ 23 := by
  have h := fl32Mag_le num den
  exact f32_fields (by omega) (by omega) (by rw [fl32_toNat]; omega)

theorem fl32_notNan (s : Bool) (num den : Nat) : f32IsNan (fl32 s num den) = false := by
  obtain ⟨_, e, m⟩ := fl32_fields s num den
  have h := fl32Mag_le num den
  rw [f32IsNan_false_iff, e, m]; omega

theorem fl32_isFinite_iff (s : Bool) (num den : Nat) : f32IsFinite (fl32 s num den) = true ↔
    fl32Mag num den < 255 * 2 ^ 23 := by
  obtain ⟨_, e, m⟩ := fl32_fields s num den
  have h := fl32Mag_le num den
  rw [f32IsFinite_iff, e]; omega

/-- The magnitude of a finite result: the rounded significand times its last place; the mantissa has its parity. -/
theorem fl32_mag (s : Bool) (num : Nat) {den : Nat} (hd : 0 < den) (h : f32IsFinite (fl32 s num den) = true) :
    f32Mag (fl32 s num den) = roundNearestEven num (den * 2 ^ ulpShift num den) * 2 ^ ulpShift num den ∧
        f32Man (fl32 s num den) % 2 = roundNearestEven num (den * 2 ^ ulpShift num den) % 2 := by
  rw [fl32_isFinite_iff] at h
  obtain ⟨_, e, m⟩ := fl32_fields s num den
  obtain ⟨r1, r2⟩ := significand_spec num hd
  have hM : fl32Mag num den = ulpShift num den * 2 ^ 23 + roundNearestEven num (den * 2 ^ ulpShift num den) := by
    unfold fl32Mag at h ⊢; simp only at h ⊢; omega
  rw [f32Mag, e, m, hM]
  generalize roundNearestEven num (den * 2 ^ ulpShift num den) = r at *
  generalize ulpShift num den = k at *
  refine ⟨?_, by omega⟩
  split
  · have hk : k = 0 := by omega
    subst hk
    omega
  · rename_i hne
    by_cases hr : r = 2 ^ 24
    · have e1 : (k * 2 ^ 23 + r) / 2 ^ 23 - 1 = k + 1 := by omega
      have e2 : (k * 2 ^ 23 + r) % 2 ^ 23 = 0 := by omega
      rw [e1, e2, hr, Nat.pow_succ]; omega
    · by_cases hr2 : r < 2 ^ 23
      · have hk : k = 0 := by omega
        subst hk; omega
      · have e1 : (k * 2 ^ 23 + r) / 2 ^ 23 - 1 = k := by omega
        have e2 : 2 ^ 23 + (k * 2 ^ 23 + r) % 2 ^ 23 = r := by omega
        rw [e1, e2]

/-- Every finite magnitude is a 24-bit significand times a power of two. -/
theorem f32Mag_form (x : Word) (h : f32IsFinite x = true) : ∃ m j, f32Mag x = m * 2 ^ j ∧ m < 2 ^ 24 ∧ (j =
    0 ∨ 2 ^ 23 ≤ m) ∧ j ≤ 253 := by
  obtain ⟨_, e, m⟩ := f32_split x
  rw [f32IsFinite_iff] at h
  unfold f32Mag; split
  · exact ⟨f32Man x, 0, by omega, by omega, .inl rfl, by omega⟩
  · exact ⟨_, _, rfl, by omega, .inr (by omega), by omega⟩

theorem fl32_isInf_iff (s : Bool) (num den : Nat) : f32IsInf (fl32 s num den) = true ↔
    255 * 2 ^ 23 ≤ ulpShift num den * 2 ^ 23 + roundNearestEven num (den * 2 ^ ulpShift num den) := by
  obtain ⟨_, e, m⟩ := fl32_fields s num den
  rw [f32IsInf_iff, e, m]; unfold fl32Mag; simp only; omega

/-- When the rounded significand reaches the infinity pattern, with `Q` for `2 ^ 252` times the denominator. -/
theorem overflow_iff {num r k D Q : Nat} (hD : 0 < D) (r1 : r ≤ 2 ^ 24) (r2 : k ≠ 0 → 2 ^ 23 ≤ r) (u1 :
    num < 2 ^ 24 * D) (u2 : k ≠ 0 → 2 ^ 23 * D ≤ num)
    (a : 2 * (r * D) ≤ 2 * num + D) (b : 2 * num ≤ 2 * (r * D) + D) (c : 2 * (r * D) = 2 * num + D ∨ 2 * num =
        2 * (r * D) + D → r % 2 = 0)
    (hl : k < 253 → D ≤ Q) (he : k = 253 → D = 2 * Q) (hg : 253 < k → 4 * Q ≤ D) :
    255 * 2 ^ 23 ≤ k * 2 ^ 23 + r ↔ (2 ^ 25 - 1) * Q ≤ num := by
  rcases Nat.lt_trichotomy k 253 with hk | hk | hk
  · have := hl hk
    exact iff_of_false (by omega) (by omega)
  · have hDQ := he hk
    subst hk
    constructor
    · intro h
      have : r = 2 ^ 24 := by omega
      subst this
      omega
    · intro h
      have : r = 2 ^ 24 := by
        by_contra hne
        have hl : r ≤ 2 ^ 24 - 1 := by omega
        have h3 : r * D ≤ (2 ^ 24 - 1) * D := Nat.mul_le_mul_right _ hl
        have h4 : r * D = (2 ^ 24 - 1) * D := by omega
        have h5 : r = 2 ^ 24 - 1 := Nat.eq_of_mul_eq_mul_right hD h4
        have := c (.inr (by omega))
        omega
      omega
  · have := hg hk
    have h7 := r2 (by omega)
    have h8 := u2 (by omega)
    exact iff_of_true (by omega) (by omega)

/-- Overflow: from `2 ^ 128 - 2 ^ 103` on the result is infinite (R19). -/
theorem fl32_isInf_iff_le (s : Bool) (num : Nat) {den : Nat} (hd : 0 < den) : f32IsInf (fl32 s num den) = true ↔
    (2 ^ 25 - 1) * (den * 2 ^ 252) ≤ num := by
  obtain ⟨r1, r2⟩ := significand_spec num hd
  obtain ⟨u1, u2⟩ := ulpShift_spec num hd
  have hD : 0 < den * 2 ^ ulpShift num den := by positivity
  obtain ⟨a, b, c⟩ := roundNearestEven_spec (num := num) hD
  rw [fl32_isInf_iff]
  have mono : ∀ i j, i ≤ j → den * 2 ^ i ≤ den * 2 ^ j :=
      fun i j h => Nat.mul_le_mul_left _ (Nat.pow_le_pow_right (by decide) h)
  have add : ∀ i j, den * 2 ^ (i + j) = 2 ^ j * (den * 2 ^ i) := fun i j => by rw [Nat.pow_add]; ring
  refine overflow_iff hD r1 r2 u1 u2 a b c (fun h => mono _ _ (by omega)) (fun h => ?_) (fun h => ?_)
  · rw [h]; exact add 252 1
  · exact le_trans (le_of_eq (add 252 2).symm) (mono _ _ (by omega))

/-- A magnitude with a 24-bit significand is not rounded. -/
theorem fl32_exact (s : Bool) {n j : Nat} (hn : n < 2 ^ 24) (hj : j ≤ 200) :
    f32IsFinite (fl32 s (n * 2 ^ j) 1) = true ∧ f32Mag (fl32 s (n * 2 ^ j) 1) = n * 2 ^ j := by
  have hfin : f32IsFinite (fl32 s (n * 2 ^ j) 1) = true := by
    have hi := fl32_isInf_iff_le s (n * 2 ^ j) (den := 1) (by decide)
    have hnn := fl32_notNan s (n * 2 ^ j) 1
    have h1 : 2 ^ j ≤ 2 ^ 200 := Nat.pow_le_pow_right (by decide) hj
    have h2 : n * 2 ^ j ≤ 2 ^ 24 * 2 ^ 200 := Nat.mul_le_mul (by omega) h1
    have h3 : ¬ f32IsInf (fl32 s (n * 2 ^ j) 1) = true := by
      rw [hi, Nat.one_mul]; generalize n * 2 ^ j = N at *; omega
    rw [f32IsFinite_iff]; intro e
    rw [f32IsNan_false_iff] at hnn
    rw [f32IsInf_iff] at h3
    omega
  refine ⟨hfin, ?_⟩
  rw [(fl32_mag s _ (by decide) hfin).1]
  obtain ⟨u1, u2⟩ := ulpShift_spec (n * 2 ^ j) (den := 1) (by decide)
  obtain ⟨a, b, _⟩ := roundNearestEven_spec (num := n * 2 ^ j) (den := 1 * 2 ^ ulpShift (n * 2 ^ j) 1) (by positivity)
  rw [Nat.one_mul] at *
  generalize roundNearestEven (n * 2 ^ j) (2 ^ ulpShift (n * 2 ^ j) 1) = r at *
  generalize ulpShift (n * 2 ^ j) 1 = k at *
  have hkj : k ≤ j := by
    by_contra hc
    have h1 := u2 (by omega)
    have h2 : 2 ^ (j + 1) ≤ 2 ^ k := Nat.pow_le_pow_right (by decide) (by omega)
    rw [Nat.pow_succ] at h2
    have h3 : n * 2 ^ j < 2 ^ 24 * 2 ^ j := Nat.mul_lt_mul_of_pos_right hn (by positivity)
    generalize n * 2 ^ j = N at *; generalize 2 ^ j = J at *; generalize 2 ^ k = K at *; omega
  obtain ⟨d, rfl⟩ := Nat.exists_eq_add_of_le hkj
  have e : n * 2 ^ (k + d) = (n * 2 ^ d) * 2 ^ k := by rw [Nat.pow_add]; ring
  rw [e] at a b ⊢
  have hK : 0 < 2 ^ k := by positivity
  generalize n * 2 ^ d = m at *
  generalize 2 ^ k = K at *
  have : r = m := by
    rcases Nat.lt_trichotomy r m with h | h | h
    · have := Nat.mul_le_mul_right K (show r + 1 ≤ m from h); rw [Nat.add_mul] at this; omega
    · exact h
    · have := Nat.mul_le_mul_right K (show m + 1 ≤ r from h); rw [Nat.add_mul] at this; omega
  rw [this]

/-! ## Magnitudes -/

/-- A magnitude from the low 31 bits of its pattern. -/
theorem f32Mag_of_toNat (v : Word) : f32Mag v = if v.toNat % 2 ^ 31 < 2 ^ 23 then v.toNat % 2 ^ 31 else (2 ^ 23 +
    v.toNat % 2 ^ 23) * 2 ^ (v.toNat % 2 ^ 31 / 2 ^ 23 - 1) := by
  have h1 : f32Exp v = v.toNat % 2 ^ 31 / 2 ^ 23 := by rw [f32Exp_eq]; omega
  rw [f32Mag, h1, f32Man_eq]
  by_cases h : v.toNat % 2 ^ 31 < 2 ^ 23
  · rw [if_pos h, if_pos (by omega)]; omega
  · rw [if_neg h, if_neg (by omega)]

/-- Magnitude patterns compare as magnitudes do. -/
theorem f32Mag_mono {v w : Word} (h : v.toNat % 2 ^ 31 ≤ w.toNat % 2 ^ 31) : f32Mag v ≤ f32Mag w := by
  rw [f32Mag_of_toNat, f32Mag_of_toNat]
  split
  · split
    · exact h
    · have : 0 < 2 ^ (w.toNat % 2 ^ 31 / 2 ^ 23 - 1) := by positivity
      have h5 := Nat.le_mul_of_pos_right (2 ^ 23 + w.toNat % 2 ^ 23) this
      omega
  · rw [if_neg (by omega)]
    by_cases he : v.toNat % 2 ^ 31 / 2 ^ 23 = w.toNat % 2 ^ 31 / 2 ^ 23
    · rw [he]; exact Nat.mul_le_mul_right _ (by omega)
    · obtain ⟨d, hd⟩ : ∃ d, w.toNat % 2 ^ 31 / 2 ^ 23 - 1 = (v.toNat % 2 ^ 31 / 2 ^ 23 - 1) + 1 + d :=
        ⟨w.toNat % 2 ^ 31 / 2 ^ 23 - 1 - (v.toNat % 2 ^ 31 / 2 ^ 23 - 1) - 1, by omega⟩
      rw [hd, Nat.pow_add, Nat.pow_add]
      have h1 : 2 ^ 23 + v.toNat % 2 ^ 23 ≤ 2 ^ 24 := by omega
      have h2 : 2 ^ 23 ≤ 2 ^ 23 + w.toNat % 2 ^ 23 := by omega
      generalize 2 ^ (v.toNat % 2 ^ 31 / 2 ^ 23 - 1) = E
      have h3 : 0 < 2 ^ d := by positivity
      generalize 2 ^ d = F at *
      calc _ ≤ 2 ^ 24 * E := Nat.mul_le_mul_right _ h1
        _ = 2 ^ 23 * (E * 2 ^ 1 * 1) := by ring
        _ ≤ _ := Nat.mul_le_mul h2 (Nat.mul_le_mul_left _ h3)

end Sys2Proof.Machine
end

