-- ==== Sys2Proof/Laws/PerInstr.lean ====
section
/-! SUPPORT. Facts about every command as syntax, one lemma per constructor. -/

namespace Sys2Proof.Laws.EncodedFields

/-- The fields of the command's word are those of its row in the opcode map (30_encoding.md R91 to R94): RSVD 0,
OPCODE the row's, SLOT the command's slot number, 0 for a scalar command. -/
def Statement (i : Instr) : Prop :=
  rsvdField (encode i) = 0 ∧ opcodeField (encode i) = i.opcode.toNat ∧ (slotField (encode i)).val = i.slotNumber

theorem f32ToBits : Statement .f32ToBits := ⟨by decide, by decide, by decide⟩
theorem bitsToF32 : Statement .bitsToF32 := ⟨by decide, by decide, by decide⟩
theorem bf16Enc : Statement .bf16Enc := ⟨by decide, by decide, by decide⟩
theorem bf16Dec : Statement .bf16Dec := ⟨by decide, by decide, by decide⟩
theorem fp16Enc : Statement .fp16Enc := ⟨by decide, by decide, by decide⟩
theorem fp16Dec : Statement .fp16Dec := ⟨by decide, by decide, by decide⟩

/-- A block command's word is its opcode and its slot number. -/
theorem of_slot {i : Instr} {k : Fin 16} (hi : i.slot? = some k) : Statement i := by
  have ho : i.opcode.toNat < 256 := by cases i <;> simp [Instr.opcode]
  have hn : i.slotNumber = k.val := by rw [Instr.slotNumber, hi]
  obtain ⟨h1, h2, h3⟩ := fields_of_word ho (hn ▸ encode_toNat i)
  exact ⟨h1, h2, hn ▸ congrArg Fin.val h3⟩

theorem q8Enc (slot : Fin 16) : Statement (.q8Enc slot) := of_slot rfl
theorem q4Enc (slot : Fin 16) : Statement (.q4Enc slot) := of_slot rfl
theorem qDec (slot : Fin 16) : Statement (.qDec slot) := of_slot rfl
theorem qDestroy (slot : Fin 16) : Statement (.qDestroy slot) := of_slot rfl

end Sys2Proof.Laws.EncodedFields
end

