-- ==== Sys2Proof/Laws/Quantizer.lean ====
section
/-! SUPPORT. The quantizer's parts (43_block_quantizer.md): the kind table, the largest magnitude, the scale, the codes
an encode writes. -/

namespace Sys2Proof.Machine

/-! ## The kind table -/

/-- The bounds of the codes in a legal configuration. -/
theorem code_bounds {c : Config} (hc : c.Legal) (kind) : -128 ≤ codeLo c kind ∧ codeLo c kind ≤ 0 ∧
    0 ≤ codeHi c kind ∧ codeHi c kind ≤ (match kind with | .q8 => 127 | .q4 => 255) ∧ (kind = .q4 → codeLo c kind =
        0) := by
  obtain ⟨_, _, _, h4, h8, _⟩ := hc
  cases kind <;> simp [codeLo, codeHi] <;> omega

/-- The divisor and the largest code agree. -/
theorem codeRange_bounds {c : Config} (hc : c.Legal) (kind) : 15 ≤ codeRange c kind ∧ codeRange c kind ≤ 255 ∧
    codeHi c kind = codeRange c kind ∧ (kind = .q8 → codeLo c kind ≤ -127 ∧ codeRange c kind = 127) := by
  obtain ⟨_, _, _, h4, h8, _⟩ := hc
  cases kind <;> simp [codeRange, codeHi, codeLo] <;> omega

/-- A code in range survives its byte (R187, R76). -/
theorem codeInt_ofInt {c : Config} (hc : c.Legal) (kind) (x : Int) (h1 : codeLo c kind ≤ x) (h2 :
    x ≤ codeHi c kind) : codeInt kind (BitVec.ofInt 8 x) = x := by
  have := code_bounds hc kind
  cases kind
  · simp only [codeInt, BitVec.toInt_ofInt]; simp at this; rw [Int.bmod_eq_of_le] <;> omega
  · simp only [codeInt, BitVec.toNat_ofInt]; simp at this; omega

/-! ## The largest magnitude and the scale -/

theorem magBits_toNat (v : Word) : (magBits v).toNat = v.toNat % 2 ^ 31 := by
  rw [magBits, BitVec.toNat_and]; exact Nat.and_two_pow_sub_one_eq_mod _ 31

theorem f32Mag_magBits (v : Word) : f32Mag (magBits v) = f32Mag v := by
  rw [f32Mag_of_toNat, f32Mag_of_toNat, magBits_toNat]
  have e1 : v.toNat % 2 ^ 31 % 2 ^ 31 = v.toNat % 2 ^ 31 := by omega
  have e2 : v.toNat % 2 ^ 31 % 2 ^ 23 = v.toNat % 2 ^ 23 := by omega
  rw [e1, e2]

/-- The running maximum of R181. -/
theorem foldl_max_spec (vs : List Word) (a : Word) (ha : a.toNat < 2 ^ 31) :
    let r := vs.foldl (fun mx v => if mx < magBits v then magBits v else mx) a
    r.toNat < 2 ^ 31 ∧ (∀ v ∈ vs, v.toNat % 2 ^ 31 ≤ r.toNat) ∧ a.toNat ≤ r.toNat ∧ (r = a ∨ ∃ v ∈ vs, r =
        magBits v) := by
  induction vs generalizing a with
  | nil => exact ⟨ha, by simp, le_refl _, .inl rfl⟩
  | cons v vs ih =>
    simp only [List.foldl_cons]
    have hv := magBits_toNat v
    by_cases hlt : a < magBits v
    · rw [if_pos hlt]
      obtain ⟨i1, i2, i3, i4⟩ := ih (magBits v) (by omega)
      have hlt' := BitVec.lt_def.1 hlt
      refine ⟨i1, ?_, by omega, .inr ?_⟩
      · intro x hx; rcases List.mem_cons.1 hx with rfl | hx
        · omega
        · exact i2 x hx
      · rcases i4 with h | ⟨x, hx, h⟩
        · exact ⟨v, by simp, h⟩
        · exact ⟨x, by simp [hx], h⟩
    · rw [if_neg hlt]
      obtain ⟨i1, i2, i3, i4⟩ := ih a ha
      have hlt' := mt BitVec.lt_def.2 hlt
      refine ⟨i1, ?_, i3, ?_⟩
      · intro x hx; rcases List.mem_cons.1 hx with rfl | hx
        · omega
        · exact i2 x hx
      · rcases i4 with h | ⟨x, hx, h⟩
        · exact .inl h
        · exact .inr ⟨x, by simp [hx], h⟩

/-- `mx` is the largest magnitude, and an element has it (R181). -/
theorem blockMax_spec {vs : List Word} (h : vs ≠ []) : ∃ v ∈ vs, f32Mag (blockMax vs) = f32Mag v ∧ ∀ x ∈ vs,
    f32Mag x ≤ f32Mag v := by
  obtain ⟨i1, i2, i3, i4⟩ := foldl_max_spec vs 0 (by decide)
  change (blockMax vs).toNat < 2 ^ 31 at i1
  change ∀ v ∈ vs, v.toNat % 2 ^ 31 ≤ (blockMax vs).toNat at i2
  change blockMax vs = 0 ∨ ∃ v ∈ vs, blockMax vs = magBits v at i4
  have all : ∀ x ∈ vs, f32Mag x ≤ f32Mag (blockMax vs) := fun x hx => f32Mag_mono (by have := i2 x hx; omega)
  rcases i4 with e | ⟨v, hv, e⟩
  · obtain ⟨v, hv⟩ := List.exists_mem_of_ne_nil _ h
    have hz : f32Mag v = f32Mag (blockMax vs) := by
      have h1 := all v hv
      rw [e] at h1 ⊢
      have : f32Mag 0 = 0 := rfl
      omega
    exact ⟨v, hv, hz.symm, fun x hx => hz ▸ all x hx⟩
  · have hz : f32Mag (blockMax vs) = f32Mag v := by rw [e, f32Mag_magBits]
    exact ⟨v, hv, hz, fun x hx => hz ▸ all x hx⟩

/-- The scale of a nonempty block of finite elements (R183). -/
theorem blockScale_spec (c : Config) (kind : BlockKind) {vs : List Word} (h : vs ≠ []) :
    ∃ v ∈ vs, (∀ x ∈ vs, f32Mag x ≤ f32Mag v) ∧
      blockScale c kind vs = fp16Encode c.fp16NanFill (fl32 false (f32Mag v) (codeRange c kind)) := by
  obtain ⟨v, hv, e, m⟩ := blockMax_spec h
  exact ⟨v, hv, m, by rw [blockScale, f32DivNat, e]⟩

/-- float16 encode keeps the sign. -/
theorem f16Sign_fp16Encode (fill : BitVec 10) (b : Word) : f16Sign (fp16Encode fill b) = f32Sign b := by
  have l := f32_split b
  by_cases c1 : f32Exp b < 102
  · rw [fp16Encode_zero fill b c1]; exact (f16Pack_fields (by omega) (by omega)).1
  · by_cases c2 : f32Exp b ≤ 112
    · rw [fp16Encode_subnormal fill b (by omega) c2]
      exact (f16Pack_fields (by omega) (fp16_subnormal_lt b (by omega) c2)).1
    · by_cases c3 : f32Exp b ≤ 142
      · rw [fp16Encode_normal fill b (by omega) c3]; exact (f16Pack_fields (by omega) (by omega)).1
      · by_cases c4 : f32Exp b ≤ 254
        · rw [fp16Encode_overflow fill b (by omega) c4]; exact (f16Pack_fields (by omega) (by omega)).1
        · rw [fp16Encode_top fill b (by omega)]
          have := f16NanMan_lt fill b
          exact (f16Pack_fields (by omega) (by split <;> omega)).1

/-! ## The codes -/

/-- Every code is in its range, drawn or not (R185, R186). -/
theorem quantize_codes_mem {c kind t vs} (hc : Config.Legal c) : ∀ x ∈ (quantize c kind t vs).2, codeLo c kind ≤ x ∧
    x ≤ codeHi c kind := by
  have hl := code_bounds hc kind
  intro x hx
  simp only [quantize] at hx
  split at hx
  · simp only [List.mem_map] at hx
    obtain ⟨v, _, rfl⟩ := hx
    simp only [elementCode]; split
    · omega
    · exact clamp_range _ _ _ (by omega)
  · simp only [List.mem_map] at hx
    obtain ⟨v, _, rfl⟩ := hx
    simp only [freeElementCode]
    have h1 := Int.emod_nonneg (Config.freeChoice t v : Int) (b := codeHi c kind - codeLo c kind + 1) (by omega)
    have h2 := Int.emod_lt_of_pos (Config.freeChoice t v : Int) (b := codeHi c kind - codeLo c kind + 1) (by omega)
    omega

/-- With a NaN or an infinity among the elements everything is drawn (R186). -/
theorem quantize_nonfinite {c kind t} {vs : List Word} (h : vs.all f32IsFinite = false) : quantize c kind t vs =
    (Config.freeScale t, (List.range vs.length).map (freeElementCode c kind t)) := by
  simp [quantize, h]

/-- One code per element. -/
theorem quantize_codes_length {c kind t vs} : (quantize c kind t vs).2.length = vs.length := by
  simp only [quantize]; split <;> simp

theorem blockValues_length (s : State) (n) : (blockValues s n).length = n := by simp [blockValues]

theorem blockValues_getElem (s : State) (n i) (h : i < (blockValues s n).length) : (blockValues s n)[i] =
    s.readIn i := by simp [blockValues]

theorem blockValues_mem {s : State} {n : Nat} {v : Word} : v ∈ blockValues s n ↔ ∃ i < n, s.readIn i = v := by
  simp [blockValues]

/-- The block a successful encode writes is well formed. -/
theorem newBlock_wf {kind s} (hc : s.cfg.Legal) (hl : s.len ≠ 0) (hn : s.len.toNat ≤ s.cfg.nMax) :
    (newBlock kind s).Wf s.cfg := by
  refine ⟨?_, hn, ?_, ?_⟩
  · have : s.len.toNat ≠ 0 := fun h => hl (BitVec.eq_of_toNat_eq (by simpa using h))
    show 1 ≤ s.len.toNat; omega
  · show (List.map _ _).length = s.len.toNat
    rw [List.length_map, quantize_codes_length]; simp [blockValues]
  · intro x hx
    change x ∈ List.map _ _ at hx
    simp only [List.mem_map] at hx
    obtain ⟨y, hy, rfl⟩ := hx
    have := quantize_codes_mem hc y hy
    show codeLo s.cfg kind ≤ codeInt kind _ ∧ codeInt kind _ ≤ codeHi s.cfg kind
    rw [codeInt_ofInt hc kind y this.1 this.2]; exact this

/-- The slot a successful encode leaves. -/
theorem encoded_slot (kind k s) : (encoded kind k s).slot k = { block := some (newBlock kind s), draw :=
    s.nextDraw } := by
  simp [encoded, State.slot, State.setBlock, finish]

theorem encoded_scale (kind k s) : ((encoded kind k s).slot k).scale =
    (quantize s.cfg kind s.nextDraw (blockValues s s.len.toNat)).1 := by
  rw [encoded_slot]; rfl

/-- The codes a successful encode leaves. -/
theorem encoded_code (kind s i) (hi : i < s.len.toNat) : ∃ h :
    i < (quantize s.cfg kind s.nextDraw (blockValues s s.len.toNat)).2.length, ((encoded kind k s).slot k).code i =
        BitVec.ofInt 8 ((quantize s.cfg kind s.nextDraw (blockValues s s.len.toNat)).2[i]) := by
  have h : i < (quantize s.cfg kind s.nextDraw (blockValues s s.len.toNat)).2.length := by
      rw [quantize_codes_length, blockValues_length]; exact hi
  refine ⟨h, ?_⟩
  have h' : i < (newBlock kind s).codes.length := by simp only [newBlock, encodedBlock, List.length_map]; exact h
  rw [encoded_slot, code_of_block (b := newBlock kind s) rfl i h']
  simp [newBlock, encodedBlock]

end Sys2Proof.Machine
end

