-- ==== Sys2Proof/Laws/Window.lean ====
section
/-! SUPPORT. What a step does with the host's next event: reads, writes, refusals, the CMD write, reset. -/

namespace Sys2Proof.Machine

/-! ## Steps -/

theorem step_nil {s : State} (h : s.pending = []) : step s = .next s := by rw [step, h]

theorem step_cons {s : State} {e : HostEvent} {rest : List HostEvent} (h : s.pending = e :: rest) :
    step s = perform e { s with pending := rest } := by rw [step, h]

/-! ## Accesses -/

theorem inWindow_iff (c : Config) (addr : Nat) :
    inWindow c addr = true ↔ c.ffcBase ≤ addr ∧ addr < c.ffcBase + 2 ^ 23 := by
  simp [inWindow]

/-- An aligned 32-bit access inside the window reaches the place at its offset. -/
theorem accessLoc_offset {c : Config} {off : Nat} (h : off < 2 ^ 23) (h4 : off % 4 = 0) :
    accessLoc c 4 (c.ffcBase + off) = .ok (locate c off) := by
  have hin : inWindow c (c.ffcBase + off) = true := (inWindow_iff _ _).2 ⟨by omega, by omega⟩
  simp [accessLoc, hin, h4]

/-- Everything an access can reach. -/
theorem accessLoc_cases (c : Config) (width addr : Nat) :
    (inWindow c addr = true ∧ width = 4 ∧ (addr - c.ffcBase) % 4 = 0 ∧
      accessLoc c width addr = .ok (locate c (addr - c.ffcBase))) ∨
    (inWindow c addr = true ∧ (width ≠ 4 ∨ (addr - c.ffcBase) % 4 ≠ 0) ∧
      accessLoc c width addr = .error .accessShape) ∨
    (inWindow c addr = false ∧ accessLoc c width addr = .error .outsideWindow) := by
  cases hw : inWindow c addr with
  | false => exact .inr (.inr ⟨rfl, by simp [accessLoc, hw]⟩)
  | true =>
    by_cases h : width = 4 ∧ (addr - c.ffcBase) % 4 = 0
    · exact .inl ⟨rfl, h.1, h.2, by simp only [accessLoc, hw, if_pos h, if_true]⟩
    · exact .inr (.inl ⟨rfl, by tauto, by simp only [accessLoc, hw, if_neg h, if_true]⟩)

theorem step_read {s : State} {off : Nat} {rest : List HostEvent} (h : off < 2 ^ 23) (h4 : off % 4 = 0)
    (hp : s.pending = .read 4 (s.cfg.ffcBase + off) :: rest) :
    step s = .next { s with
      pending := rest
      reads := readLoc { s with pending := rest } (locate s.cfg off) :: s.reads } := by
  rw [step_cons hp]; simp only [perform, accessLoc_offset h h4]

theorem step_write {s : State} {off : Nat} {w : Word} {rest : List HostEvent} (h : off < 2 ^ 23) (h4 : off % 4 = 0)
    (hp : s.pending = .write 4 (s.cfg.ffcBase + off) w :: rest) :
    step s = writeLoc w { s with pending := rest } (locate s.cfg off) := by
  rw [step_cons hp]; simp only [perform, accessLoc_offset h h4]

/-- A read sees the state, not what is pending. -/
@[simp] theorem readLoc_pending (s : State) (p : List HostEvent) (loc : WindowLoc) :
    readLoc { s with pending := p } loc = readLoc s loc := by cases loc <;> rfl

/-- Everything a host write can do, once its place is known: run the CMD write, store OPA, LEN or an IN element, or
nothing. -/
theorem writeLoc_cases (w : Word) (s : State) (loc : WindowLoc) :
    (loc = .cmd ∧ writeLoc w s loc = writeCmd w s) ∨
    (loc = .opa ∧ writeLoc w s loc = .next { s with opa := w }) ∨
    (loc = .len ∧ writeLoc w s loc = .next { s with len := w }) ∨
    (∃ i, loc = .inWord i ∧ writeLoc w s loc = .next { s with inArr := s.inArr.write i w }) ∨
    (loc ≠ .cmd ∧ writeLoc w s loc = .next s) := by
  cases loc <;> simp [writeLoc]

/-! ## The CMD write -/

/-- Everything a CMD write can do: the selected command on the state that holds the word, or ILLEGAL_CMD. -/
theorem writeCmd_cases (w : Word) (s : State) :
    (∃ i, decode s.cfg.numSlots w = .ok i ∧ writeCmd w s = exec i { s with cmd := w }) ∨
    (∃ r, decode s.cfg.numSlots w = .error r ∧ writeCmd w s = .next (finish .illegalCmd { s with cmd := w })) := by
  rw [writeCmd]
  cases decode s.cfg.numSlots w with
  | ok i => exact .inl ⟨i, rfl, rfl⟩
  | error r => exact .inr ⟨r, rfl, rfl⟩

/-! ## The map -/

theorem locateRegister_ne_in (off i : Nat) : locateRegister off ≠ .inWord i := by
  unfold locateRegister; split <;> simp

theorem locateRegister_cmd {off : Nat} (h : locateRegister off = .cmd) : off = 0 := by
  unfold locateRegister at h; split at h <;> simp_all

theorem locateSlotRegister_ne (k : Fin 16) (r : Nat) :
    locateSlotRegister k r ≠ .cmd ∧ ∀ i, locateSlotRegister k r ≠ .inWord i := by
  unfold locateSlotRegister; split <;> simp

/-- CMD lies at offset 0 alone. -/
theorem locate_cmd {c : Config} {off : Nat} (h : locate c off = .cmd) : off = 0 := by
  unfold locate at h
  split at h
  · exact locateRegister_cmd h
  · split at h
    · dsimp only at h
      split at h
      · exact absurd h (locateSlotRegister_ne _ _).1
      · simp at h
    · split at h
      · simp at h
      · split at h
        · dsimp only at h; split at h <;> simp at h
        · split at h
          · dsimp only at h; split at h <;> simp at h
          · split at h
            · simp at h
            · dsimp only at h; split at h <;> simp at h

/-- The IN element at an offset is one that exists. -/
theorem locate_inWord {c : Config} {off i : Nat} (h : locate c off = .inWord i) : i < c.nMax := by
  unfold locate at h
  split at h
  · exact absurd h (locateRegister_ne_in _ _)
  · split at h
    · dsimp only at h
      split at h
      · exact absurd h ((locateSlotRegister_ne _ _).2 i)
      · simp at h
    · split at h
      · simp at h
      · split at h
        · dsimp only at h
          split at h
          · rename_i hlt; injection h with h; exact h ▸ hlt
          · simp at h
        · split at h
          · dsimp only at h; split at h <;> simp at h
          · split at h
            · simp at h
            · dsimp only at h; split at h <;> simp at h

theorem locate_slotRegister (c : Config) (k : Fin 16) (r : Nat) (hr : r < 0x10) :
    locate c (0x100 + 0x10 * k.val + r) =
      if k.val < c.numSlots then locateSlotRegister k r else .reserved := by
  have hk := k.isLt
  have h1 : ¬ 0x100 + 0x10 * k.val + r < 0x100 := by omega
  have h2 : 0x100 + 0x10 * k.val + r < 0x200 := by omega
  have h3 : (0x100 + 0x10 * k.val + r - 0x100) / 0x10 = k.val := by omega
  have h4 : (0x100 + 0x10 * k.val + r - 0x100) % 0x10 = r := by omega
  have h5 : Fin.ofNat 16 k.val = k := Fin.ext (by simp [Fin.ofNat])
  simp only [locate, h1, h2, h3, h4, h5, if_false, if_true]

theorem locate_in (c : Config) (i : Nat) (hi : i < 2 ^ 18) :
    locate c (0x100000 + 4 * i) = if i < c.nMax then .inWord i else .reserved := by
  have h1 : ¬ 0x100000 + 4 * i < 0x100 := by omega
  have h2 : ¬ 0x100000 + 4 * i < 0x200 := by omega
  have h3 : ¬ 0x100000 + 4 * i < 0x100000 := by omega
  have h4 : 0x100000 + 4 * i < 0x200000 := by omega
  have h5 : (0x100000 + 4 * i - 0x100000) / 4 = i := by omega
  simp only [locate, h1, h2, h3, h4, h5, if_false, if_true]

theorem locate_out (c : Config) (i : Nat) (hi : i < 2 ^ 18) :
    locate c (0x200000 + 4 * i) = if i < c.nMax then .outWord i else .reserved := by
  have h1 : ¬ 0x200000 + 4 * i < 0x100 := by omega
  have h2 : ¬ 0x200000 + 4 * i < 0x200 := by omega
  have h3 : ¬ 0x200000 + 4 * i < 0x100000 := by omega
  have h4 : ¬ 0x200000 + 4 * i < 0x200000 := by omega
  have h5 : 0x200000 + 4 * i < 0x300000 := by omega
  have h6 : (0x200000 + 4 * i - 0x200000) / 4 = i := by omega
  simp only [locate, h1, h2, h3, h4, h5, h6, if_false, if_true]

theorem locate_codes (c : Config) (k : Fin 16) (j : Nat) (hj : j < 0x10000) :
    locate c (0x400000 + 0x40000 * k.val + 4 * j) =
      if k.val < c.numSlots ∧ 4 * j < c.nMax then .codes k j else .reserved := by
  have hk := k.isLt
  have h1 : ¬ 0x400000 + 0x40000 * k.val + 4 * j < 0x100 := by omega
  have h2 : ¬ 0x400000 + 0x40000 * k.val + 4 * j < 0x200 := by omega
  have h3 : ¬ 0x400000 + 0x40000 * k.val + 4 * j < 0x100000 := by omega
  have h4 : ¬ 0x400000 + 0x40000 * k.val + 4 * j < 0x200000 := by omega
  have h5 : ¬ 0x400000 + 0x40000 * k.val + 4 * j < 0x300000 := by omega
  have h6 : ¬ 0x400000 + 0x40000 * k.val + 4 * j < 0x400000 := by omega
  have h7 : (0x400000 + 0x40000 * k.val + 4 * j - 0x400000) / 0x40000 = k.val := by omega
  have h8 : (0x400000 + 0x40000 * k.val + 4 * j - 0x400000) % 0x40000 / 4 = j := by omega
  have h9 : Fin.ofNat 16 k.val = k := Fin.ext (by simp [Fin.ofNat])
  simp only [locate, h1, h2, h3, h4, h5, h6, h7, h8, h9, if_false]

theorem locate_reserved_mid (c : Config) (off : Nat) (h : 0x200 ≤ off) (h' : off < 0x100000) :
    locate c off = .reserved := by
  have h1 : ¬ off < 0x100 := by omega
  have h2 : ¬ off < 0x200 := by omega
  simp only [locate, h1, h2, h', if_false, if_true]

theorem locate_reserved_high (c : Config) (off : Nat) (h : 0x300000 ≤ off) (h' : off < 0x400000) :
    locate c off = .reserved := by
  have h1 : ¬ off < 0x100 := by omega
  have h2 : ¬ off < 0x200 := by omega
  have h3 : ¬ off < 0x100000 := by omega
  have h4 : ¬ off < 0x200000 := by omega
  have h5 : ¬ off < 0x300000 := by omega
  simp only [locate, h1, h2, h3, h4, h5, h', if_false, if_true]

end Sys2Proof.Machine
end

