-- ==== Sys2Proof/Tests/Slice0.lean ====
section
/-! SUPPORT. The model's own tests, and for every statement with hypotheses a witness that they can be met. Expected
values are the spec's: the opcode map (30_encoding.md R94), the vectors V1 to V19 and E1 to E16 and the tables of
95_test_vectors.md; `W…` is a worked example of its §1. -/

namespace Sys2Proof.Tests

open Sys2Proof.Machine Sys2Proof.Claim

/-! ## Small states -/

/-- The outcome is a next state with the property. -/
def gives (o : Host.Outcome State Fault Refusal) (f : State → Bool) : Bool :=
  match o with
  | .next t => f t
  | .fault _ => false
  | .refused _ => false

/-- After reset, with OPA written. -/
def withOpa (w : Word) : State := { State.reset with opa := w }

/-- After reset, with IN[0..] and LEN written. -/
def withIn (ws : List Word) : State :=
  { State.reset with len := BitVec.ofNat 32 ws.length, inArr := State.reset.inArr.writePrefix ws }

/-- After reset, with a block in slot `k`. -/
def withBlock (k : Fin 16) (b : Block) : State := State.reset.setBlock k (some b)

/-- The block of V1. -/
def blockV1 : Block := { kind := .q8, blen := 4, scale := 0x2008, codes := [0x7F, 0x81, 0x40, 0xC0] }

/-- The command word is the host's next access of CMD; what the step then leaves. -/
def runs (s : State) (w : Nat) (f : State → Bool) : Bool := gives (step (s.withFetchWord 32 w)) f

/-! ## Well-formed commands -/

theorem test_wf_q8Enc : (Instr.q8Enc 3).wf 4 = true ∧ (Instr.q8Enc 4).wf 4 = false := by decide
theorem test_wf_q4Enc : (Instr.q4Enc 0).wf 1 = true ∧ (Instr.q4Enc 1).wf 1 = false := by decide
theorem test_wf_qDec : (Instr.qDec 15).wf 16 = true ∧ (Instr.qDec 15).wf 15 = false := by decide
theorem test_wf_qDestroy : (Instr.qDestroy 3).wf 4 = true ∧ (Instr.qDestroy 15).wf 4 = false := by decide

/-! ## Decoding: the words of the opcode map, bit by bit -/

theorem test_decode_f32ToBits : decodeTableWord 32 0b00000000000000000000_0000_00000001 = some .f32ToBits := by decide
theorem test_decode_bitsToF32 : decodeTableWord 32 0b00000000000000000000_0000_00000010 = some .bitsToF32 := by decide
theorem test_decode_bf16Enc : decodeTableWord 32 0b00000000000000000000_0000_00010000 = some .bf16Enc := by decide
theorem test_decode_bf16Dec : decodeTableWord 32 0b00000000000000000000_0000_00010001 = some .bf16Dec := by decide
theorem test_decode_fp16Enc : decodeTableWord 32 0b00000000000000000000_0000_00011000 = some .fp16Enc := by decide
theorem test_decode_fp16Dec : decodeTableWord 32 0b00000000000000000000_0000_00011001 = some .fp16Dec := by decide
theorem test_decode_q8Enc : decodeTableWord 32 0b00000000000000000000_0010_00100000 = some (.q8Enc 2) := by decide
theorem test_decode_q4Enc : decodeTableWord 32 0b00000000000000000000_0001_00100001 = some (.q4Enc 1) := by decide
theorem test_decode_qDec : decodeTableWord 32 0b00000000000000000000_0011_00101000 = some (.qDec 3) := by decide
theorem test_decode_qDestroy : decodeTableWord 32 0b00000000000000000000_0000_00101111 = some (.qDestroy 0) := by decide

/-- E9 to E15: one illegal word for each reason. -/
theorem test_decode_illegal :
    decode 4 0x00000000 = .error .unknownOpcode ∧ decode 4 0x00000003 = .error .unknownOpcode ∧
    decode 4 0x000000FF = .error .unknownOpcode ∧ decode 4 0x00000118 = .error .scalarSlot ∧
    decode 4 0x00001018 = .error .reservedBits ∧ decode 4 0x80000010 = .error .reservedBits ∧
    decode 4 0x00000420 = .error .slotOutOfRange := by decide

/-- E16: with 16 slots the word of Q8_ENC 15 is legal. -/
theorem test_decode_sixteen_slots : decode 16 0x00000F20 = .ok (.q8Enc 15) := by decide

/-! ## Scalar commands (95 §2.1 to §2.5) -/

theorem test_f32ToBits_nan : runs (withOpa 0x7F800001) 0x01 (fun t => t.res = 0x7F800001 ∧ t.status = 0) = true := by
  decide
theorem test_bitsToF32_negative_zero : runs (withOpa 0x80000000) 0x02 (fun t => t.res = 0x80000000) = true := by decide
theorem test_bf16Enc_tie_to_even : runs (withOpa 0x3F818000) 0x10 (fun t => t.res = 0x3F82) = true := by decide
theorem test_bf16Enc_flush : runs (withOpa 0x80000001) 0x10 (fun t => t.res = 0x8000) = true := by decide
theorem test_bf16Dec_upper_ignored : runs (withOpa 0xFFFF3F80) 0x11 (fun t => t.res = 0x3F800000) = true := by decide
theorem test_fp16Enc_truncates : runs (withOpa 0x477FFF00) 0x18 (fun t => t.res = 0x7BFF) = true := by decide
theorem test_fp16Enc_nan_fill : runs (withOpa 0x7F800001) 0x18 (fun t => t.res = 0x7C01) = true := by decide
theorem test_fp16Dec_smallest : runs (withOpa 0x0001) 0x19 (fun t => t.res = 0x33800000) = true := by decide
theorem test_fp16Dec_infinity : runs (withOpa 0xFC00) 0x19 (fun t => t.res = 0xFF800000) = true := by decide

/-! ## Block commands (95 §2.6, §2.7) -/

/-- V1, W15. -/
theorem test_q8Enc_V1 :
    runs (withIn [0x3F800000, 0xBF800000, 0x3F000000, 0xBF000000]) 0x20
      (fun t => t.res = 0x2008 ∧ (t.slot 0).block = some blockV1) = true := by decide

/-- V7: a subnormal scale, both clamps. -/
theorem test_q8Enc_V7 :
    runs (withIn [0x373E8000, 0xB73E8000, 0x36BE8000]) 0x20
      (fun t => t.res = 0x0001 ∧ (t.slot 0).codes = [0x7F, 0x80, 0x5F]) = true := by decide

/-- V13: a negative element of a Q4 block gets code 0. -/
theorem test_q4Enc_V13 :
    runs (withIn [0x3F800000, 0x3F000000, 0xBF000000, 0x3E800000]) 0x121
      (fun t => t.res = 0x2C44 ∧ (t.slot 1).codes = [15, 8, 0, 4] ∧ (t.slot 1).kind = .q4) = true := by decide

/-- V16e: a tie under `QROUND_TIES = EVEN`. -/
theorem test_q4Enc_V16e :
    runs { withIn [0x41700000, 0x40200000] with cfg := { Config.reference with qroundTies := .even } } 0x21
      (fun t => t.res = 0x3C00 ∧ (t.slot 0).codes = [15, 2]) = true := by decide

/-- V1. -/
theorem test_qDec_V1 :
    runs (withBlock 0 blockV1) 0x28
      (fun t => t.res = 4 ∧ t.readOut 0 = 0x3F7FFC00 ∧ t.readOut 1 = 0xBF7FFC00 ∧ t.readOut 3 = 0xBF010000) = true := by
  decide

/-- V11: an infinite scale and a code 0. -/
theorem test_qDec_V11 :
    runs (withBlock 3 { kind := .q8, blen := 1, scale := 0x7C00, codes := [0] }) 0x328
      (fun t => t.status = 0 ∧ t.readOut 0 = 0x7FC00000) = true := by decide

/-- E1. -/
theorem test_qDestroy_live :
    runs (withBlock 0 blockV1) 0x2F (fun t => t.status = 0 ∧ (t.slot 0).valid = false) = true := by decide

/-- E2. -/
theorem test_qDestroy_empty :
    runs State.reset 0x2F (fun t => t = { State.reset with cmd := 0x2F, status := 3 }) = true := by decide

/-- V19, R186: the scale of a block with a NaN is the free value. -/
theorem test_q8Enc_V19 :
    gives (exec (.q8Enc 0) (withIn [0x7FC00000, 0x3F800000])) (fun t => t.status = 0 ∧ (t.slot 0).valid) = true ∧
    (newBlock .q8 (withIn [0x7FC00000, 0x3F800000])).scale = Config.freeScale State.reset.nextDraw := ⟨by decide, rfl⟩

/-! ## The window and reset -/

/-- P2 step 10: the code buffer is little-endian. -/
theorem test_read_codes :
    gives (step { withBlock 0 blockV1 with pending := [.read 4 0x400000] }) (fun t => t.reads = [0xC040817F]) = true := by
  decide

/-- R62: SLOT_CTL of a live Q4 block is 3. -/
theorem test_read_slotCtl :
    gives (step { withBlock 1 { blockV1 with kind := .q4 } with pending := [.read 4 0x110] })
      (fun t => t.reads = [3]) = true := by decide

/-- R252: an element not written since reset reads as the free value. -/
theorem test_unwritten_in : State.reset.readIn 7 = Config.freeWord State.reset.inArr.draw 7 := rfl

/-- P4 step 8. -/
theorem test_reset_releases :
    gives (step { withBlock 2 blockV1 with opa := 5, pending := [.reset] })
      (fun t => t.opa = 0 ∧ (t.slot 2).valid = false) = true := by decide

/-! ## Witnesses: the hypotheses of the statements can be met, each clause at the edge of its range -/

/-- One finite element, 1.0. -/
def oneElement : State := withIn [0x3F800000]

/-- A NaN element. -/
def nanElement : State := withIn [0x7FC00000, 0x3F800000]

/-- The host's next events. -/
def withEvents (es : List HostEvent) : State := { State.reset with pending := es }

/-- For OperandWritesOnlyStore and ReservedAndReadOnlyOffsets, with the offsets below. -/
theorem witness_legal : Config.reference.Legal := by decide

/-- A word at both ends of every range R97 lists. -/
theorem witness_illegalWordSetsIllegalCmdOnly :
    ListedIllegal 4 0x00 ∧ ListedIllegal 4 0x03 ∧ ListedIllegal 4 0x0F ∧ ListedIllegal 4 0x12 ∧ ListedIllegal 4 0x17 ∧
    ListedIllegal 4 0x1A ∧ ListedIllegal 4 0x1F ∧ ListedIllegal 4 0x22 ∧ ListedIllegal 4 0x27 ∧ ListedIllegal 4 0x29 ∧
    ListedIllegal 4 0x2E ∧ ListedIllegal 4 0x30 ∧ ListedIllegal 4 0xFF ∧ ListedIllegal 4 0x101 ∧
    ListedIllegal 4 0xF19 ∧ ListedIllegal 4 0x420 ∧ ListedIllegal 4 0xF2F ∧ ListedIllegal 4 0x1010 ∧
    ListedIllegal 4 0x80000020 ∧ ¬ LegalWord 4 0x00 ∧ ¬ LegalWord 4 0x420 := by
  refine ⟨?_, ?_, ?_, ?_, ?_, ?_, ?_, ?_, ?_, ?_, ?_, ?_, ?_, ?_, ?_, ?_, ?_, ?_, ?_, ?_, ?_⟩ <;>
  · simp only [ListedIllegal, LegalWord]; decide

theorem witness_stepRunsDecodedCommand :
    decode (withEvents [.write 4 0 0x320]).cfg.numSlots 0x320 = .ok (.q8Enc 3) ∧
    (withEvents [.write 4 0 0x320]).pending = [.write 4 (withEvents []).cfg.ffcBase 0x320] ∧
    decode Config.reference.numSlots 0x420 = .error .slotOutOfRange := by decide

theorem witness_idleUnitKeepsState : State.reset.pending = [] := rfl

theorem witness_oddAccessIsRefused :
    inWindow Config.reference 0x7FFFFF = true ∧ (0x7FFFFF - Config.reference.ffcBase) % 4 ≠ 0 ∧
    inWindow Config.reference 0 = true ∧ (2 : Nat) ≠ 4 ∧
    (withEvents [.read 4 0x7FFFFF]).pending = [.read 4 0x7FFFFF] ∧
    (withEvents [.write 2 0 5]).pending = [.write 2 0 5] := by decide

theorem witness_eventsHappenOneByOneInOrder :
    gives (step (withEvents [.read 4 0x7FFFFC, .reset])) (fun t => t.pending = [.reset]) = true ∧
    gives (step (withEvents [.write 4 0x04 5])) (fun t => t.pending = []) = true := by decide

theorem witness_meaningfulProgramNeverStops :
    ∀ e ∈ (withEvents [.read 4 0x7FFFFC, .write 4 0 0x420, .reset]).pending, Meaningful Config.reference e := by
  simp only [withEvents, List.forall_mem_cons]; exact ⟨by decide, by decide, trivial, by simp⟩

theorem witness_slotRegisterReads :
    (3 : Fin 16).val < Config.reference.numSlots ∧ (State.reset.slot 3).valid = false ∧
    Config.reference.numSlots ≤ (4 : Fin 16).val ∧ ((withBlock 3 blockV1).slot 3).valid = true := by decide

theorem witness_elementArrayReads :
    Config.reference.Legal ∧ 4095 < Config.reference.nMax ∧ Config.reference.nMax ≤ 4096 ∧ 4096 < 2 ^ 18 := by decide

/-- With `N_MAX = 5`, word 1 of a code buffer has one lane that exists; word 2 is reserved. -/
theorem witness_codeBufferReads :
    (3 : Fin 16).val < Config.reference.numSlots ∧ 4 * 1023 < Config.reference.nMax ∧
    Config.reference.nMax ≤ 4 * 1024 ∧ Config.reference.numSlots ≤ (4 : Fin 16).val ∧
    Config.Legal { Config.reference with nMax := 5 } ∧ 4 * 1 < 5 ∧ 5 ≤ 4 * 2 := by decide

/-- Both ends of every range of reserved offsets, and the fourth register of a slot. -/
theorem witness_reservedOffset :
    (∀ off ∈ [0x1C, 0xFC], ReservedOffset Config.reference off) ∧
    (ReservedOffset Config.reference 0x10C ∧ ReservedOffset Config.reference 0x140 ∧
      ReservedOffset Config.reference 0x1FC) ∧
    (∀ off ∈ [0x200, 0xFFFFC], ReservedOffset Config.reference off) ∧
    (∀ off ∈ [0x104000, 0x1FFFFC], ReservedOffset Config.reference off) ∧
    (∀ off ∈ [0x204000, 0x2FFFFC], ReservedOffset Config.reference off) ∧
    (∀ off ∈ [0x300000, 0x3FFFFC], ReservedOffset Config.reference off) ∧
    (ReservedOffset Config.reference 0x401000 ∧ ReservedOffset Config.reference 0x500000 ∧
      ReservedOffset Config.reference 0x7FFFFC) := by
  refine ⟨fun off h => .inl ?_, ⟨.inr (.inl ⟨0, by decide, .inl rfl⟩), .inr (.inl ⟨4, by decide, .inr (by decide)⟩),
    .inr (.inl ⟨15, by decide, .inl rfl⟩)⟩, fun off h => .inr (.inr (.inl ?_)),
    fun off h => .inr (.inr (.inr (.inl ?_))), fun off h => .inr (.inr (.inr (.inr (.inl ?_)))),
    fun off h => .inr (.inr (.inr (.inr (.inr (.inl ?_))))),
    ⟨.inr (.inr (.inr (.inr (.inr (.inr ⟨0, by decide, 1024, by decide, by decide, by decide⟩))))),
      .inr (.inr (.inr (.inr (.inr (.inr ⟨4, by decide, 0, by decide, by decide, by decide⟩))))),
      .inr (.inr (.inr (.inr (.inr (.inr ⟨15, by decide, 0xFFFF, by decide, by decide, by decide⟩)))))⟩⟩ <;>
  · simp only [List.mem_cons, List.not_mem_nil, or_false] at h
    rcases h with rfl | rfl <;> decide

/-- Both ends of every range of read-only places. -/
theorem witness_readOnlyOffset :
    ReadOnlyOffset Config.reference 0x08 ∧ ReadOnlyOffset Config.reference 0x18 ∧
    ReadOnlyOffset Config.reference 0x100 ∧ ReadOnlyOffset Config.reference 0x138 ∧
    ReadOnlyOffset Config.reference 0x203FFC ∧ ReadOnlyOffset Config.reference 0x4C0FFC :=
  ⟨.inl rfl, .inr (.inr (.inr (.inl rfl))), .inr (.inr (.inr (.inr (.inl ⟨0, by decide, .inl rfl⟩)))),
    .inr (.inr (.inr (.inr (.inl ⟨3, by decide, .inr (.inr rfl)⟩)))),
    .inr (.inr (.inr (.inr (.inr (.inl ⟨4095, by decide, by decide⟩))))),
    .inr (.inr (.inr (.inr (.inr (.inr ⟨3, by decide, 1023, by decide, by decide⟩)))))⟩

theorem witness_operandWritesKeepResultsAndBlocks :
    (withEvents [.write 4 0x100000 7]).pending = [.write 4 0x100000 7] ∧ 0x100000 ≠ Config.reference.ffcBase ∧
    gives (step (withEvents [.write 4 0x100000 7])) (fun t => t.readIn 0 = 7) = true := by decide

theorem witness_resetInput : (withEvents [.reset]).pending = [.reset] := rfl

/-- Both steps of R251: the one encode that ends an empty slot, and the reset that makes one. -/
theorem witness_emptySlotGivesNoBlockUntilEncoded :
    (oneElement.slot 3).valid = false ∧ runs oneElement 0x320 (fun t => (t.slot 3).valid) = true ∧
    (3 : Fin 16).val < Config.reference.numSlots := by decide

theorem witness_stepKeepsWellFormed :
    State.Wf { oneElement with pending := [.write 4 0 0x20] } ∧
    gives (step { oneElement with pending := [.write 4 0 0x20] }) (fun t => (t.slot 0).valid) = true := by decide

/-- E2 to E8, E15: each error of the table. -/
theorem witness_errorTable :
    runs State.reset 0x20 (fun t => t.status = 1) = true ∧
    runs { State.reset with len := 4097 } 0x121 (fun t => t.status = 2) = true ∧
    runs { withBlock 1 blockV1 with len := 1 } 0x120 (fun t => t.status = 2) = true ∧
    runs State.reset 0x228 (fun t => t.status = 3) = true ∧ runs State.reset 0x2F (fun t => t.status = 3) = true ∧
    runs State.reset 0x420 (fun t => t.status = 4) = true ∧ runs State.reset 0x18 (fun t => t.status = 0) = true := by
  decide

/-- For FailingCommandChangesOnlyStatus, CommandsKeepOperandsAndConfig and OnlyNamedCommandsWriteOutAndSlots. -/
theorem witness_commands :
    gives (exec (.qDec 2) State.reset) (fun t => t.status ≠ 0) = true ∧
    gives (exec .fp16Enc State.reset) (fun t => t.status = 0) = true := by decide

theorem witness_errorPriority :
    ¬ LegalWord 4 0x420 ∧ State.reset.len = 0 ∧ (4097 : Word) ≠ 0 ∧ Config.reference.nMax < (4097 : Word).toNat ∧
    (4096 : Word).toNat ≤ Config.reference.nMax ∧ ((withBlock 3 blockV1).slot 3).valid = true := by decide

theorem witness_bitViewRoundTrip : (withOpa 0x7F800001).opa = 0x7F800001 := rfl

/-- The clauses of R131, R132 and R134: exponent and mantissa of a NaN, a subnormal, a tie above an odd pattern, above
half, a tie above an even pattern, and both ends of the exponents of R134. -/
theorem witness_bf16EncResult :
    (f32Exp 0x7F800001 = 0xFF ∧ f32Man 0x7F800001 ≠ 0) ∧ f32Exp 0x007FFFFF = 0 ∧
    (f32Exp 0x3F818000 ≠ 0 ∧ f32Exp 0x3F818000 ≠ 0xFF ∧ 0x3F818000 % 2 ^ 16 = 0x8000 ∧ 0x3F818000 / 2 ^ 16 % 2 = 1) ∧
    0x8000 < 0x3F808001 % 2 ^ 16 ∧ (0x3F808000 % 2 ^ 16 = 0x8000 ∧ 0x3F808000 / 2 ^ 16 % 2 = 0) ∧
    f32Exp 0x00800000 = 1 ∧ f32Exp 0x7F7FFFFF = 0xFE ∧ (f32Exp 0x7F800000 = 0xFF ∧ f32Man 0x7F800000 = 0) := by decide

theorem witness_bf16EncodeRoundsToNearestEven :
    f32Exp 0x3F808000 ≠ 0 ∧ f32IsNan 0x3F808000 = false ∧ (0x3F81 : Half) ≠ bf16Encode 0x3F808000 ∧
    gap (0x3F81 * 2 ^ 16) 0x3F808000 = gap ((bf16Encode 0x3F808000).toNat * 2 ^ 16) 0x3F808000 := by decide

theorem witness_bf16EncodeKeepsNan : f32IsNan 0x7F800001 = true ∧ f32IsNan 0xFFFFFFFF = true := by decide

/-- Both exceptional sets of R140, at their ends. -/
theorem witness_bf16IdempotenceDomain :
    (bits (0x0001 : Half) 14 7 = 0 ∧ bits (0x0001 : Half) 6 0 ≠ 0) ∧
    (bits (0x807F : Half) 14 7 = 0 ∧ bits (0x807F : Half) 6 0 ≠ 0) ∧
    (bits (0x7F81 : Half) 14 7 = 0xFF ∧ bits (0x7F81 : Half) 6 6 = 0 ∧ bits (0x7F81 : Half) 5 0 ≠ 0) ∧
    (bits (0xFFBF : Half) 14 7 = 0xFF ∧ bits (0xFFBF : Half) 6 6 = 0 ∧ bits (0xFFBF : Half) 5 0 ≠ 0) := by decide

/-- The exponent ranges of R151 to R155 at their ends, and the three kinds of R153. -/
theorem witness_fp16EncResult :
    f32Exp 0x32FFFFFF = 101 ∧ f32Exp 0x33000000 = 102 ∧ f32Exp 0x387FFFFF = 112 ∧ f32Exp 0x38800000 = 113 ∧
    f32Exp 0x477FFF00 = 142 ∧ f32Exp 0x47800000 = 143 ∧ f32Exp 0x7F7FFFFF = 254 ∧
    (f32Exp 0xFF800000 = 255 ∧ f32Man 0xFF800000 = 0) ∧
    (f32Exp 0xFF802000 = 255 ∧ f32Man 0xFF802000 / 2 ^ 13 ≠ 0) ∧
    (f32Exp 0x7F800001 = 255 ∧ f32Man 0x7F800001 ≠ 0 ∧ f32Man 0x7F800001 / 2 ^ 13 = 0) := by decide

/-- The cases of R157 to R160 at their ends; `p` from 0 to 9. -/
theorem witness_fp16DecResult :
    (f16Exp 0x8000 = 0 ∧ f16Man 0x8000 = 0) ∧ (f16Exp 0x0001 = 0 ∧ 2 ^ 0 ≤ f16Man 0x0001 ∧ f16Man 0x0001 < 2 ^ 1) ∧
    (f16Exp 0x03FF = 0 ∧ 2 ^ 9 ≤ f16Man 0x03FF ∧ f16Man 0x03FF < 2 ^ 10) ∧ f16Exp 0xFC00 = 31 ∧ f16Exp 0x7C01 = 31 ∧
    f16Exp 0x0400 = 1 ∧ f16Exp 0x7BFF = 30 := by decide

theorem witness_halfDecodesIgnoreUpperOpa :
    (0xFFFF3F80 : Word).toNat % 2 ^ 16 = (withOpa 0x3F80).opa.toNat % 2 ^ 16 := by decide

theorem witness_fp16DecodeIsExact : f16Exp 0x7BFF ≠ 31 ∧ (f16Exp 0xFC00 = 31 ∧ f16Man 0xFC00 = 0) := by decide

/-- The ranges of R164 at their ends. -/
theorem witness_fp16EncodeTruncates :
    (1 : BitVec 10) ≠ 0 ∧ (f32IsFinite 0x337FFFFF = true ∧ f32Mag 0x337FFFFF < 2 ^ 125) ∧
    (f32IsFinite 0x33800000 = true ∧ 2 ^ 125 ≤ f32Mag 0x33800000 ∧ f32Mag 0x33800000 < 2 ^ 165) ∧
    (f32IsFinite 0x477FFFFF = true ∧ 2 ^ 125 ≤ f32Mag 0x477FFFFF ∧ f32Mag 0x477FFFFF < 2 ^ 165) ∧
    (f32IsFinite 0x47800000 = true ∧ 2 ^ 165 ≤ f32Mag 0x47800000) ∧ f32IsInf 0xFF800000 = true ∧
    f32IsNan 0x7F800001 = true := by decide +kernel

/-- A tie: `2^24 + 1` units lie between two float32 values. -/
theorem witness_fl32RoundsToNearestEven :
    0 < 1 ∧ f32IsFinite (fl32 true (2 ^ 24 + 1) 1) = true ∧ f32IsFinite 0x01000001 = true ∧
    gap (f32Mag (fl32 true (2 ^ 24 + 1) 1) * 1) (2 ^ 24 + 1) = gap (f32Mag 0x01000001 * 1) (2 ^ 24 + 1) ∧
    f32Mag 0x01000001 ≠ f32Mag (fl32 true (2 ^ 24 + 1) 1) := by decide +kernel

/-- Ties of R20: 0.5 and −1.5. -/
theorem witness_roundQIsNearestInteger :
    f32IsFinite 0x3F000000 = true ∧ 2 * (f32Val 0x3F000000 - roundQ .away 0x3F000000 * 2 ^ 149).natAbs = 2 ^ 149 ∧
    2 * (f32Val 0xBFC00000 - roundQ .even 0xBFC00000 * 2 ^ 149).natAbs = 2 ^ 149 := by decide +kernel

/-- For EncodeWritesBlock: the least and the greatest length, the first and the last slot. -/
theorem witness_encodeReady :
    EncodeReady oneElement 0 ∧ EncodeReady oneElement 3 ∧ EncodeReady { State.reset with len := 4096 } 0 := by decide

/-- For FiniteBlockScale, FiniteBlockCodes, QuantizationErrorBound and NormalScaleNeverClamps. -/
theorem witness_finiteInput : oneElement.cfg.Legal ∧ EncodeReady oneElement 0 ∧ FiniteInput oneElement := by decide

theorem witness_nonFiniteBlockIsDrawn :
    nanElement.cfg.Legal ∧ EncodeReady nanElement 0 ∧ ¬ FiniteInput nanElement := by decide

/-- A slot that is not live; a live block at the first index beyond BLEN; an encode and a release that succeed. -/
theorem witness_unspecifiedCodesAreFree :
    (State.reset.slot 15).valid = false ∧
    (((withBlock 3 blockV1).slot 3).block = some blockV1 ∧ blockV1.Wf Config.reference ∧ blockV1.blen.toNat ≤ 4) ∧
    (EncodeReady oneElement 0 ∧ oneElement.len.toNat ≤ 1) ∧
    (3 : Fin 16).val < (withBlock 3 blockV1).cfg.numSlots ∧ ((withBlock 3 blockV1).slot 3).valid = true := by decide

/-- A zero scale, and one that is not: the clauses of R184 and R185. -/
theorem witness_finiteBlockCodes :
    gives (exec (.q8Enc 0) (withIn [0x322BCC77])) (fun t => (t.slot 0).scale = 0) = true ∧
    FiniteInput (withIn [0x322BCC77]) ∧
    gives (exec (.q4Enc 0) oneElement) (fun t => (t.slot 0).scale ≠ 0) = true := by decide

theorem witness_encodeDependsOnInputOnly :
    EncodeReady oneElement 0 ∧ EncodeReady { oneElement with opa := 7, res := 9 } 3 ∧ FiniteInput oneElement ∧
    ∀ i < oneElement.len.toNat, State.readIn { oneElement with opa := 7, res := 9 } i = oneElement.readIn i := by decide

/-- For DecodeWritesOut, DecodeIsRepeatable and DestroyReleasesOnce. -/
theorem witness_liveSlot :
    (3 : Fin 16).val < (withBlock 3 blockV1).cfg.numSlots ∧ ((withBlock 3 blockV1).slot 3).block = some blockV1 ∧
    ((withBlock 3 blockV1).slot 3).valid = true ∧ 3 < blockV1.blen.toNat ∧ blockV1.blen.toNat ≤ 4 ∧
    gives (exec (.qDec 3) (withBlock 3 blockV1)) (fun t => t.status = 0) = true := by decide

/-- The clauses of R190: a NaN scale, an infinite one with code 0 and with another, a finite one; the extreme codes. -/
theorem witness_reconstructIsExactProduct :
    f32IsNan (fp16Decode 0x7C01) = true ∧ f32IsInf (fp16Decode 0xFC00) = true ∧
    f32IsFinite (fp16Decode 0x7BFF) = true ∧ (-255 : Int) ≤ -128 ∧ (255 : Int) ≤ 255 := by decide

theorem witness_zeroBlockIsSafe :
    EncodeReady (withIn [0, 0x80000000, 0]) 2 ∧
    ∀ i < (withIn [0, 0x80000000, 0]).len.toNat,
      (withIn [0, 0x80000000, 0]).readIn i = 0x00000000 ∨ (withIn [0, 0x80000000, 0]).readIn i = 0x80000000 := by decide

/-- V1: the decoded scale is finite and not zero, the quotient of 1.0 needs no clamp, the scale is a normal. -/
theorem witness_quantizationErrorBound :
    f32IsFinite (fp16Decode 0x2008) = true ∧ f32Mag (fp16Decode 0x2008) ≠ 0 ∧
    roundQ .away (f32Div 0x3F800000 (fp16Decode 0x2008)) = 127 ∧
    codeLo Config.reference .q8 ≤ 127 ∧ 127 ≤ codeHi Config.reference .q8 ∧
    gives (exec (.q8Enc 0) oneElement)
      (fun t => (t.slot 0).scale = 0x2008 ∧ 0x0400 ≤ (t.slot 0).scale.toNat ∧ (t.slot 0).scale.toNat ≤ 0x7BFF) = true ∧
    f32Sign (oneElement.readIn 0) = false := by decide +kernel

end Sys2Proof.Tests
end

section
/-! PROOFS. A host access reduced to the place it names, and the registers at offsets 0x00 to 0x18
(20_memory.md R61; 10_state.md R37, R38). -/

namespace Sys2Proof.Claim

open Sys2Proof.Machine

/-! ## One access -/

/-- An aligned read inside the window returns what the place at its offset reads as. -/
theorem readGives_iff {s : State} {off : Nat} (v : Word) (h : off < 2 ^ 23) (h4 : off % 4 = 0) :
    ReadGives s off v ↔ readLoc s (locate s.cfg off) = v := by
  rw [ReadGives, step_read h h4 rfl]
  simp

/-- An aligned write inside the window does what the write of the place at its offset does. -/
theorem writeGives_iff {s : State} {off : Nat} (w : Word) (t : State) (h : off < 2 ^ 23) (h4 : off % 4 = 0) :
    WriteGives s off w t ↔ writeLoc w s (locate s.cfg off) = .next t := by
  rw [WriteGives, step_write h h4 rfl]

/-! ## The registers -/

/-- Below 0x100 the map is the register table in every configuration. -/
theorem locate_register (c : Config) {off : Nat} (h : off < 0x100) : locate c off = locateRegister off := if_pos h

theorem readGives_register {s : State} {off : Nat} {v : Word} (h : off < 0x100) (h4 : off % 4 = 0)
    (hv : readLoc s (locateRegister off) = v) : ReadGives s off v := by
  rwa [readGives_iff v (by omega) h4, locate_register s.cfg h]

theorem writeGives_register {s : State} {off : Nat} {w : Word} {t : State} (h : off < 0x100) (h4 : off % 4 = 0)
    (hw : writeLoc w s (locateRegister off) = .next t) : WriteGives s off w t := by
  rwa [writeGives_iff w t (by omega) h4, locate_register s.cfg h]

/-- Settles O10: the register table gives each offset its register, and the places of the two constants ignore
writes. -/
theorem registerReads : Obligations.RegisterReads := by
  unfold Obligations.RegisterReads
  intro s
  refine ⟨readGives_register ?_ ?_ rfl, readGives_register ?_ ?_ rfl, readGives_register ?_ ?_ rfl,
    readGives_register ?_ ?_ rfl, readGives_register ?_ ?_ rfl, readGives_register ?_ ?_ rfl,
    readGives_register ?_ ?_ rfl, fun w => ⟨writeGives_register ?_ ?_ rfl, writeGives_register ?_ ?_ rfl⟩⟩
  all_goals decide

end Sys2Proof.Claim
end

section
/-! PROOFS. The accesses of the register window (20_memory.md): the places that read as 0 and ignore writes (R66), the
slot registers (R62), the element arrays (R63), the code buffers (R64), and the refused accesses (R68). -/

namespace Sys2Proof.Claim

open Sys2Proof.Machine

/-! ## Refused accesses -/

/-- Inside the window, an access that is not 32 bits wide or not aligned has no place. -/
theorem accessLoc_odd {c : Config} {width addr : Nat} (hin : inWindow c addr = true)
    (hodd : width ≠ 4 ∨ (addr - c.ffcBase) % 4 ≠ 0) : accessLoc c width addr = .error .accessShape := by
  obtain ⟨_, hw, h4, _⟩ | ⟨_, _, h⟩ | ⟨hout, _⟩ := accessLoc_cases c width addr
  · omega
  · exact h
  · simp [hin] at hout

/-- Settles O7: the access has no place, so neither a read nor a write of it is performed. -/
theorem oddAccessIsRefused : Obligations.OddAccessIsRefused := by
  unfold Obligations.OddAccessIsRefused
  intro s width addr w rest hin hodd hp
  have hacc := accessLoc_odd hin hodd
  rcases hp with hp | hp <;> simp only [step_cons hp, perform, hacc]

/-! ## Reserved offsets -/

/-- An access at window offset `off` finds nothing there: a read returns 0, and a write changes nothing (R66). -/
def ActsReserved (s : State) (off : Nat) : Prop := ReadGives s off 0 ∧ ∀ w, WriteGives s off w s

theorem actsReserved_of_locate {s : State} {off : Nat} (h : off < 2 ^ 23) (h4 : off % 4 = 0)
    (hl : locate s.cfg off = .reserved) : ActsReserved s off := by
  refine ⟨(readGives_iff 0 h h4).2 ?_, fun w => (writeGives_iff w s h h4).2 ?_⟩
  · rw [hl]; rfl
  · rw [hl]; rfl

/-- Above CFG_NSLOTS the register table has no place. -/
theorem locateRegister_reserved {off : Nat} (h : 0x1C ≤ off) : locateRegister off = .reserved := by
  unfold locateRegister
  split
  case h_8 => rfl
  all_goals omega

theorem actsReserved_register (s : State) {off : Nat} (h : 0x1C ≤ off) (h' : off < 0x100) (h4 : off % 4 = 0) :
    ActsReserved s off :=
  actsReserved_of_locate (by omega) h4 ((locate_register s.cfg h').trans (locateRegister_reserved h))

/-- The registers of a slot that does not exist, and the fourth word of every slot's registers (R61, R62). -/
theorem actsReserved_slotRegister (s : State) (k : Fin 16) {r : Nat} (hr : r < 0x10) (h4 : r % 4 = 0)
    (h : s.cfg.numSlots ≤ k.val ∨ r = 0xC) : ActsReserved s (0x100 + 0x10 * k.val + r) := by
  refine actsReserved_of_locate (by omega) (by omega) ?_
  rw [locate_slotRegister s.cfg k r hr]
  split
  · obtain rfl : r = 0xC := by omega
    rfl
  · rfl

theorem actsReserved_in (s : State) {i : Nat} (hi : i < 2 ^ 18) (h : s.cfg.nMax ≤ i) :
    ActsReserved s (0x100000 + 4 * i) := by
  refine actsReserved_of_locate (by omega) (by omega) ?_
  rw [locate_in s.cfg i hi, if_neg (by omega)]

theorem actsReserved_out (s : State) {i : Nat} (hi : i < 2 ^ 18) (h : s.cfg.nMax ≤ i) :
    ActsReserved s (0x200000 + 4 * i) := by
  refine actsReserved_of_locate (by omega) (by omega) ?_
  rw [locate_out s.cfg i hi, if_neg (by omega)]

theorem actsReserved_codes (s : State) (k : Fin 16) {j : Nat} (hj : j < 0x10000)
    (h : s.cfg.nMax ≤ 4 * j ∨ s.cfg.numSlots ≤ k.val) : ActsReserved s (0x400000 + 0x40000 * k.val + 4 * j) := by
  refine actsReserved_of_locate (by omega) (by omega) ?_
  rw [locate_codes s.cfg k j hj, if_neg (by omega)]

/-- An aligned offset of the word array from `base` on, as its index gives it. -/
theorem exists_word_index {base off : Nat} (hb : base % 4 = 0) (h : base ≤ off) (h4 : off % 4 = 0) :
    ∃ i, off = base + 4 * i := ⟨(off - base) / 4, by omega⟩

theorem actsReserved_of_reservedOffset {s : State} {off : Nat} (h4 : off % 4 = 0) (h : ReservedOffset s.cfg off) :
    ActsReserved s off := by
  obtain ⟨hlo, hhi⟩ | ⟨k, hk, rfl | ⟨hslot, hlo, hhi⟩⟩ | ⟨hlo, hhi⟩ | ⟨hlo, hhi⟩ | ⟨hlo, hhi⟩ | ⟨hlo, hhi⟩ |
    ⟨k, hk, j, hj, hout, rfl⟩ := h
  · exact actsReserved_register s hlo hhi h4
  · rw [show 0x10C + 0x10 * k = 0x100 + 0x10 * k + 0xC by omega]
    exact actsReserved_slotRegister s ⟨k, hk⟩ (by omega) (by omega) (.inr rfl)
  · obtain ⟨r, rfl⟩ := Nat.exists_eq_add_of_le hlo
    exact actsReserved_slotRegister s ⟨k, hk⟩ (by omega) (by omega) (.inl hslot)
  · exact actsReserved_of_locate (by omega) h4 (locate_reserved_mid s.cfg off hlo hhi)
  · obtain ⟨i, rfl⟩ := exists_word_index (base := 0x100000) (by omega) (by omega) h4
    exact actsReserved_in s (by omega) (by omega)
  · obtain ⟨i, rfl⟩ := exists_word_index (base := 0x200000) (by omega) (by omega) h4
    exact actsReserved_out s (by omega) (by omega)
  · exact actsReserved_of_locate (by omega) h4 (locate_reserved_high s.cfg off hlo hhi)
  · exact actsReserved_codes s ⟨k, hk⟩ hj hout.symm

/-! ## Writes of read-only places -/

/-- Whether slot `k` exists or not, its registers ignore writes. -/
theorem writeGives_slotRegister (s : State) (k : Fin 16) {r : Nat} (w : Word) (hr : r < 0x10) (h4 : r % 4 = 0) :
    WriteGives s (0x100 + 0x10 * k.val + r) w s := by
  rw [writeGives_iff w s (by omega) (by omega), locate_slotRegister s.cfg k r hr]
  split
  · unfold locateSlotRegister; split <;> rfl
  · rfl

theorem writeGives_out (s : State) {i : Nat} (w : Word) (hi : i < 2 ^ 18) : WriteGives s (0x200000 + 4 * i) w s := by
  rw [writeGives_iff w s (by omega) (by omega), locate_out s.cfg i hi]
  split <;> rfl

theorem writeGives_codes (s : State) (k : Fin 16) {j : Nat} (w : Word) (hj : j < 0x10000) :
    WriteGives s (0x400000 + 0x40000 * k.val + 4 * j) w s := by
  rw [writeGives_iff w s (by omega) (by omega), locate_codes s.cfg k j hj]
  split <;> rfl

theorem writeGives_of_readOnlyOffset {s : State} {off : Nat} (w : Word) (hn : s.cfg.nMax ≤ 2 ^ 18)
    (hs : s.cfg.numSlots ≤ 16) (h : ReadOnlyOffset s.cfg off) : WriteGives s off w s := by
  obtain rfl | rfl | rfl | rfl | ⟨k, hk, hoff⟩ | ⟨i, hi, rfl⟩ | ⟨k, hk, j, hj, rfl⟩ := h
  iterate 4 · exact writeGives_register (by omega) (by omega) rfl
  · obtain ⟨r, hr, h4, rfl⟩ : ∃ r < 0x10, r % 4 = 0 ∧ off = 0x100 + 0x10 * k + r :=
      ⟨off - (0x100 + 0x10 * k), by omega, by omega, by omega⟩
    exact writeGives_slotRegister s ⟨k, by omega⟩ w hr h4
  · exact writeGives_out s w (by omega)
  · exact writeGives_codes s ⟨k, by omega⟩ w (by omega)

/-- Settles O14: range by range of the map, a reserved offset has no place, and a read-only place ignores writes. -/
theorem reservedAndReadOnlyOffsets : Obligations.ReservedAndReadOnlyOffsets := by
  unfold Obligations.ReservedAndReadOnlyOffsets
  intro s off w hlegal h4
  obtain ⟨_, ⟨_, hn⟩, ⟨_, hs⟩, _⟩ := hlegal
  refine ⟨fun h => ?_, writeGives_of_readOnlyOffset w hn hs⟩
  obtain ⟨hread, hwrite⟩ := actsReserved_of_reservedOffset h4 h
  exact ⟨hread, hwrite w⟩

/-! ## The slot registers -/

/-- SLOT_CTL has KIND in bit 1 and VALID in bit 0 (R62). -/
theorem slotCtl_eq_or (sl : Slot) :
    slotCtl sl = (if sl.kind = .q4 then 2 else 0) ||| (if sl.valid then 1 else 0) := by
  rw [slotCtl]
  cases sl.kind <;> cases sl.valid <;> rfl

theorem readGives_slotRegister {s : State} {k : Fin 16} {r : Nat} {v : Word} (hk : k.val < s.cfg.numSlots)
    (hr : r < 0x10) (h4 : r % 4 = 0) (hv : readLoc s (locateSlotRegister k r) = v) :
    ReadGives s (0x100 + 0x10 * k.val + r) v := by
  rwa [readGives_iff v (by omega) (by omega), locate_slotRegister s.cfg k r hr, if_pos hk]

/-- KIND, BLEN and SCALE of a slot that is not live are the free values of its tag (R43 to R45). -/
theorem slot_free_of_not_valid {sl : Slot} (h : sl.valid = false) :
    sl.kind = Config.freeKind sl.draw ∧ sl.blen = Config.freeWord sl.draw 0 ∧
      sl.scale = Config.freeScale sl.draw := by
  obtain ⟨_ | b, t⟩ := sl
  · exact ⟨rfl, rfl, rfl⟩
  · simp [Slot.valid] at h

/-- Settles O11: the map gives an existing slot's registers their places and the others none. -/
theorem slotRegisterReads : Obligations.SlotRegisterReads := by
  unfold Obligations.SlotRegisterReads
  intro s k
  refine ⟨fun hk => ⟨?ctl, ?len, ?scale⟩, slot_free_of_not_valid, fun hk r hr => ?absent⟩
  case ctl => exact readGives_slotRegister (r := 0x0) hk (by omega) rfl (slotCtl_eq_or _)
  case len =>
    rw [show 0x104 + 0x10 * k.val = 0x100 + 0x10 * k.val + 0x4 by omega]
    exact readGives_slotRegister hk (by omega) rfl rfl
  case scale =>
    rw [show 0x108 + 0x10 * k.val = 0x100 + 0x10 * k.val + 0x8 by omega]
    exact readGives_slotRegister hk (by omega) rfl rfl
  case absent =>
    obtain ⟨hlt, h4⟩ : r < 0x10 ∧ r % 4 = 0 := by
      simp only [List.mem_cons, List.not_mem_nil, or_false] at hr
      omega
    exact actsReserved_slotRegister s k hlt h4 (.inl hk)

/-! ## The element arrays -/

theorem readGives_in (s : State) {i : Nat} (hi : i < 2 ^ 18) (h : i < s.cfg.nMax) :
    ReadGives s (0x100000 + 4 * i) (s.readIn i) := by
  rw [readGives_iff _ (by omega) (by omega), locate_in s.cfg i hi, if_pos h]
  rfl

theorem readGives_out (s : State) {i : Nat} (hi : i < 2 ^ 18) (h : i < s.cfg.nMax) :
    ReadGives s (0x200000 + 4 * i) (s.readOut i) := by
  rw [readGives_iff _ (by omega) (by omega), locate_out s.cfg i hi, if_pos h]
  rfl

/-- Settles O12: word `i` of either array is its element `i` below N_MAX and no place from there on. -/
theorem elementArrayReads : Obligations.ElementArrayReads := by
  unfold Obligations.ElementArrayReads
  intro s _ i hi
  refine ⟨fun h => ⟨readGives_in s hi h, readGives_out s hi h⟩, fun h base hb => ?rest,
    actsReserved_of_locate (by omega) (by omega) (locate_reserved_high s.cfg _ (by omega) (by omega))⟩
  simp only [List.mem_cons, List.not_mem_nil, or_false] at hb
  obtain rfl | rfl := hb
  · exact actsReserved_in s hi h
  · exact actsReserved_out s hi h

/-! ## The code buffers -/

theorem codeLane_setWidth (c : Config) (sl : Slot) (i : Nat) :
    (codeLane c sl i).setWidth 32 = if i < c.nMax then (sl.code i).setWidth 32 else (0 : Word) := by
  rw [codeLane]
  split <;> rfl

/-- A code-buffer word by its four lanes, the first code lowest (R64). -/
theorem codesWord_eq_or (c : Config) (sl : Slot) (j : Nat) :
    codesWord c sl j = ((codeLane c sl (4 * j)).setWidth 32 ||| (codeLane c sl (4 * j + 1)).setWidth 32 <<< 8 |||
      (codeLane c sl (4 * j + 2)).setWidth 32 <<< 16 ||| (codeLane c sl (4 * j + 3)).setWidth 32 <<< 24 : Word) :=
  append_four_bytes _ _ _ _

theorem readGives_codes (s : State) {k : Fin 16} {j : Nat} (hj : j < 0x10000) (hk : k.val < s.cfg.numSlots)
    (h : 4 * j < s.cfg.nMax) :
    ReadGives s (0x400000 + 0x40000 * k.val + 4 * j) (codesWord s.cfg (s.slot k) j) := by
  rw [readGives_iff _ (by omega) (by omega), locate_codes s.cfg k j hj, if_pos ⟨hk, h⟩]
  rfl

/-- Settles O13: the word at an existing place is its four lanes joined, and the other words have no place. -/
theorem codeBufferReads : Obligations.CodeBufferReads := by
  unfold Obligations.CodeBufferReads
  intro s k j hj
  refine ⟨fun hk h => ?live, actsReserved_codes s k hj⟩
  simpa only [codesWord_eq_or, codeLane_setWidth] using readGives_codes s hj hk h

end Sys2Proof.Claim
end

section
/-! PROOFS. Which command words the decoder accepts (30_encoding.md R95), and what a CMD write of any other word does
(R97): legality written with masks and shifts, reduced once to the three fields the decoder reads. -/

namespace Sys2Proof.Claim

open Sys2Proof.Machine

/-! ## The fields by masks and shifts -/

theorem and_0xFF_toNat (w : Word) : (w &&& 0xFF).toNat = opcodeField w := by
  rw [BitVec.toNat_and, opcodeField, bits_def, Nat.pow_zero, Nat.div_one]
  exact Nat.and_two_pow_sub_one_eq_mod _ 8

theorem shiftRight_and_0xF_toNat (w : Word) : ((w >>> 8) &&& 0xF).toNat = (slotField w).val := by
  rw [BitVec.toNat_and, BitVec.toNat_ushiftRight, Nat.shiftRight_eq_div_pow]
  exact (Nat.and_two_pow_sub_one_eq_mod _ 4).trans (Nat.mod_mod _ 16).symm

theorem shiftRight_toNat (w : Word) : (w >>> 12).toNat = rsvdField w := by
  have hw := w.isLt
  rw [BitVec.toNat_ushiftRight, Nat.shiftRight_eq_div_pow, rsvdField, bits_def]
  omega

/-- The mask of R95 clears SLOT and keeps OPCODE and RSVD. -/
theorem and_0xFFFFF0FF_toNat (w : Word) : (w &&& 0xFFFFF0FF).toNat = opcodeField w + 4096 * rsvdField w := by
  have hop : opcodeField (w &&& 0xFFFFF0FF) = opcodeField w := by
    rw [← and_0xFF_toNat, ← and_0xFF_toNat, BitVec.and_assoc]; rfl
  have hslot : (slotField (w &&& 0xFFFFF0FF)).val = 0 := by
    rw [← shiftRight_and_0xF_toNat, BitVec.ushiftRight_and_distrib, BitVec.and_assoc]
    exact congrArg BitVec.toNat (BitVec.and_zero (x := w >>> 8))
  have hrsvd : rsvdField (w &&& 0xFFFFF0FF) = rsvdField w := by
    rw [← shiftRight_toNat, ← shiftRight_toNat, BitVec.ushiftRight_and_distrib, BitVec.toNat_and]
    refine (Nat.and_two_pow_sub_one_eq_mod _ 20).trans (Nat.mod_eq_of_lt ?_)
    rw [shiftRight_toNat]
    exact (word_eq_fields w).2.2
  rw [(word_eq_fields _).1, hop, hslot, hrsvd, Nat.mul_zero, Nat.add_zero]

/-! ## Legality -/

/-- The opcodes of the six scalar commands (R94). -/
abbrev IsScalarOpcode (op : Nat) : Prop := op ∈ [0x01, 0x02, 0x10, 0x11, 0x18, 0x19]

/-- The opcodes of the four block commands (R94). -/
abbrev IsBlockOpcode (op : Nat) : Prop := op ∈ [0x20, 0x21, 0x28, 0x2F]

/-- R95 on an OPCODE and a SLOT field: an opcode of the map with a slot number it allows. -/
abbrev LegalFields (n op slot : Nat) : Prop := (IsScalarOpcode op ∧ slot = 0) ∨ (IsBlockOpcode op ∧ slot < n)

theorem legalWord_iff_fields (n : Nat) (w : Word) :
    LegalWord n w ↔ rsvdField w = 0 ∧ LegalFields n (opcodeField w) (slotField w).val := by
  simp only [LegalWord, LegalFields, List.mem_cons, List.not_mem_nil, or_false, ← BitVec.toNat_inj, BitVec.reduceToNat,
    and_0xFF_toNat, shiftRight_and_0xF_toNat, shiftRight_toNat]

theorem isScalarOpcode_of_slot_none {i : Instr} (h : i.slot? = none) : IsScalarOpcode i.opcode.toNat := by
  cases i <;> simp_all [Instr.slot?, Instr.opcode]

theorem isBlockOpcode_of_slot_some {i : Instr} {s : Fin 16} (h : i.slot? = some s) :
    IsBlockOpcode i.opcode.toNat := by
  cases i <;> simp_all [Instr.slot?, Instr.opcode]

/-- The opcode map accepts exactly the legal pairs of fields. -/
theorem exists_decodeFields_iff (n op : Nat) (s : Fin 16) :
    (∃ i, decodeFields n op s = .ok i) ↔ LegalFields n op s.val := by
  constructor
  · rintro ⟨i, h⟩
    obtain ⟨rfl, ⟨hi, rfl⟩ | ⟨hi, hs⟩⟩ := decodeFields_eq_ok h
    · exact .inl ⟨isScalarOpcode_of_slot_none hi, rfl⟩
    · exact .inr ⟨isBlockOpcode_of_slot_some hi, hs⟩
  · simp only [LegalFields, List.mem_cons, List.not_mem_nil, or_false]
    rintro (⟨rfl | rfl | rfl | rfl | rfl | rfl, hs⟩ | ⟨rfl | rfl | rfl | rfl, hs⟩)
    iterate 6 · exact ⟨_, decodeScalar_eq_ok.2 ⟨Fin.ext hs, rfl⟩⟩
    iterate 4 · exact ⟨_, decodeBlock_eq_ok.2 ⟨hs, rfl⟩⟩

theorem exists_decode_iff_legalWord (n : Nat) (w : Word) : (∃ i, decode n w = .ok i) ↔ LegalWord n w := by
  rw [legalWord_iff_fields, decode]
  split
  case isTrue hr => rw [and_iff_right hr, exists_decodeFields_iff]
  case isFalse hr => simp [hr]

/-- The six scalar words are the scalar opcodes with SLOT and RSVD zero. -/
theorem mem_scalarWords_iff (w : Word) :
    w ∈ [0x00000001, 0x00000002, 0x00000010, 0x00000011, 0x00000018, 0x00000019] ↔
      rsvdField w = 0 ∧ IsScalarOpcode (opcodeField w) ∧ (slotField w).val = 0 := by
  obtain ⟨hw, hop, _⟩ := word_eq_fields w
  simp only [List.mem_cons, List.not_mem_nil, or_false, ← BitVec.toNat_inj, BitVec.reduceToNat, hw]
  omega

/-- The masked word is a block opcode exactly when OPCODE is one and RSVD is zero. -/
theorem masked_mem_blockOpcodes_iff (w : Word) :
    w &&& 0xFFFFF0FF ∈ [0x20, 0x21, 0x28, 0x2F] ↔ rsvdField w = 0 ∧ IsBlockOpcode (opcodeField w) := by
  obtain ⟨_, hop, _⟩ := word_eq_fields w
  simp only [List.mem_cons, List.not_mem_nil, or_false, ← BitVec.toNat_inj, BitVec.reduceToNat, and_0xFFFFF0FF_toNat]
  omega

/-- Settles O2: both forms of R95 say the same of the word's three fields, and the decoder reads nothing else. -/
theorem decodeAcceptsExactlyLegalWords : Obligations.DecodeAcceptsExactlyLegalWords := by
  unfold Obligations.DecodeAcceptsExactlyLegalWords
  intro n w
  refine ⟨exists_decode_iff_legalWord n w, ?_⟩
  rw [legalWord_iff_fields, mem_scalarWords_iff, masked_mem_blockOpcodes_iff, shiftRight_and_0xF_toNat, and_assoc,
    and_or_left]

/-! ## Illegal words -/

/-- A CMD write of a word that is not legal stores it and raises ILLEGAL_CMD (R90, R224). -/
theorem writeCmd_of_not_legalWord {s : State} {w : Word} (h : ¬ LegalWord s.cfg.numSlots w) :
    writeCmd w s = .next { s with cmd := w, status := 4 } := by
  obtain ⟨i, hi, _⟩ | ⟨_, _, hw⟩ := writeCmd_cases w s
  · exact absurd ((exists_decode_iff_legalWord _ w).1 ⟨i, hi⟩) h
  · exact hw

theorem writeGives_of_not_legalWord {s : State} {w : Word} (h : ¬ LegalWord s.cfg.numSlots w) :
    WriteGives s 0x00 w { s with cmd := w, status := 4 } :=
  writeGives_register (by decide) (by decide) (writeCmd_of_not_legalWord h)

/-- Each class of words R97 lists breaks a clause of R95. -/
theorem not_legalWord_of_listedIllegal {n : Nat} {w : Word} (h : ListedIllegal n w) : ¬ LegalWord n w := by
  simp only [ListedIllegal, and_0xFF_toNat, shiftRight_and_0xF_toNat, ne_eq, ← BitVec.toNat_inj, shiftRight_toNat,
    List.mem_cons, List.not_mem_nil, or_false, BitVec.reduceToNat] at h
  simp only [legalWord_iff_fields, LegalFields, List.mem_cons, List.not_mem_nil, or_false]
  omega

/-- Settles O3: the decoder rejects a word that is not legal, and every listed class is not legal. -/
theorem illegalWordSetsIllegalCmdOnly : Obligations.IllegalWordSetsIllegalCmdOnly := by
  unfold Obligations.IllegalWordSetsIllegalCmdOnly
  exact fun _ _ => ⟨writeGives_of_not_legalWord, not_legalWord_of_listedIllegal⟩

end Sys2Proof.Claim
end

section
/-! PROOFS. The CMD write of a scalar command, and the two BitView commands (40_bitview.md R120, R121). -/

namespace Sys2Proof.Claim

open Sys2Proof.Machine

/-! ## The CMD write of a command's word -/

/-- The word of a scalar command selects it in a unit of any number of slots (R95, R101). -/
theorem decode_encode_of_slot_none (n : Nat) {i : Instr} (hi : i.slot? = none) : decode n (encode i) = .ok i := by
  cases i with
  | f32ToBits | bitsToF32 | bf16Enc | bf16Dec | fp16Enc | fp16Dec => rfl
  | q8Enc _ | q4Enc _ | qDec _ | qDestroy _ => cases hi

/-- A CMD write of a word that selects a command runs it on the state that holds the word (R90). -/
theorem writeCmd_of_decode {s : State} {w : Word} {i : Instr} (h : decode s.cfg.numSlots w = .ok i) :
    writeCmd w s = exec i { s with cmd := w } := by
  rw [writeCmd, h]

/-- A CMD write of a scalar command's word leaves what the command leaves of the state that holds the word. -/
theorem writeGives_of_slot_none {s t : State} {i : Instr} (hi : i.slot? = none)
    (h : exec i { s with cmd := encode i } = .next t) : WriteGives s 0x00 (encode i) t :=
  writeGives_register (by decide) (by decide) ((writeCmd_of_decode (decode_encode_of_slot_none _ hi)).trans h)

/-! ## BitView -/

/-- A command that completes with `r` changes RES and STATUS only (R16). -/
theorem complete_eq_withResult (r : Word) (s : State) : complete r s = .next (withResult s r) := rfl

/-- R120: the completion with OPA, since `to_bits` is the identity on patterns. -/
theorem exec_f32ToBits (s : State) : exec .f32ToBits s = .next (withResult s s.opa) :=
  complete_eq_withResult (toBits (operand32 s)) s

/-- R121: the completion with OPA, since `from_bits` is the identity on patterns. -/
theorem exec_bitsToF32 (s : State) : exec .bitsToF32 s = .next (withResult s s.opa) :=
  complete_eq_withResult (fromBits (operand32 s)) s

/-- Settles O28: the meaning is the completion with OPA in every state, so also in the one that holds the word. -/
theorem f32ToBitsCopiesOpa : Obligations.F32ToBitsCopiesOpa := by
  unfold Obligations.F32ToBitsCopiesOpa
  exact fun s => ⟨exec_f32ToBits s, writeGives_of_slot_none (i := .f32ToBits) rfl (exec_f32ToBits _)⟩

/-- Settles O29: the meaning is the completion with OPA in every state, so also in the one that holds the word. -/
theorem bitsToF32CopiesOpa : Obligations.BitsToF32CopiesOpa := by
  unfold Obligations.BitsToF32CopiesOpa
  exact fun s => ⟨exec_bitsToF32 s, writeGives_of_slot_none (i := .bitsToF32) rfl (exec_bitsToF32 _)⟩

end Sys2Proof.Claim
end

section
/-! PROOFS. BF16_ENC and BF16_DEC (41_bfloat16.md R131, R132, R134, R137): the two conversions as operations on all of
OPA. -/

namespace Sys2Proof.Claim

open Sys2Proof.Machine

/-! ## BF16_ENC -/

/-- The upper half of a word, extended to a word again, is the word shifted. -/
theorem zextHalf_upperHalf (b : Word) : zextHalf (upperHalf b) = b >>> 16 := by
  rw [← BitVec.toNat_inj, zextHalf_toNat, upperHalf_toNat, BitVec.toNat_ushiftRight, Nat.shiftRight_eq_div_pow]

/-- R131: a NaN keeps its upper half, with the quiet bit set. -/
theorem zextHalf_bf16Encode_of_nan {b : Word} (h : f32IsNan b = true) :
    zextHalf (bf16Encode b) = (b >>> 16) ||| 0x0040 := by
  rw [bf16Encode, if_pos h, ← zextHalf_upperHalf]
  exact BitVec.setWidth_or

/-- R132: a zero or a subnormal keeps its sign only. -/
theorem zextHalf_bf16Encode_of_exp_zero {b : Word} (h : f32Exp b = 0) :
    zextHalf (bf16Encode b) = (b >>> 16) &&& 0x8000 := by
  have hn : ¬ f32IsNan b = true := fun hn => by simp [((f32IsNan_iff b).1 hn).1] at h
  rw [bf16Encode, if_neg hn, if_pos h, ← zextHalf_upperHalf]
  exact BitVec.setWidth_and

/-- The condition of R134: the low half is above the halfway point, or at it below an odd upper half. -/
abbrev Bf16RoundsUp (b : Word) : Prop :=
  0x8000 < b.toNat % 2 ^ 16 ∨ (b.toNat % 2 ^ 16 = 0x8000 ∧ b.toNat / 2 ^ 16 % 2 = 1)

/-- Adding 1 to bit 16 of a pattern that is no NaN does not overflow: the greatest such number is the pattern of −∞. -/
theorem add_bit16_toNat {b : Word} (hn : f32IsNan b = false) : (b + 0x10000).toNat = b.toNat + 2 ^ 16 := by
  have hb := b.isLt
  rw [f32IsNan_false_iff, f32Exp_eq, f32Man_eq] at hn
  exact BitVec.toNat_add_of_lt (show b.toNat + 0x10000 < 2 ^ 32 by omega)

/-- R134, rounding up: 1 added to bit 16 of the pattern, then the shift. -/
theorem zextHalf_bf16Encode_of_roundsUp {b : Word} (h0 : f32Exp b ≠ 0) (hn : f32IsNan b = false)
    (h : Bf16RoundsUp b) : zextHalf (bf16Encode b) = (b + 0x10000) >>> 16 := by
  rw [← BitVec.toNat_inj, zextHalf_toNat, bf16Encode_toNat b h0 hn, if_pos h, BitVec.toNat_ushiftRight,
    add_bit16_toNat hn, Nat.shiftRight_eq_div_pow, Nat.add_div_right _ (by decide)]

/-- R134, rounding down: the shift alone. -/
theorem zextHalf_bf16Encode_of_not_roundsUp {b : Word} (h0 : f32Exp b ≠ 0) (hn : f32IsNan b = false)
    (h : ¬ Bf16RoundsUp b) : zextHalf (bf16Encode b) = b >>> 16 := by
  rw [← BitVec.toNat_inj, zextHalf_toNat, bf16Encode_toNat b h0 hn, if_neg h, BitVec.toNat_ushiftRight,
    Nat.shiftRight_eq_div_pow, Nat.add_zero]

/-- R136: the completion with what OPA encodes to. -/
theorem exec_bf16Enc {s : State} {r : Word} (h : zextHalf (bf16Encode s.opa) = r) :
    exec .bf16Enc s = .next (withResult s r) :=
  h ▸ complete_eq_withResult (zextHalf (bf16Encode (operand32 s))) s

/-- Settles O31: BF16_ENC completes with the encoding of OPA, which each case of R131, R132 and R134 gives. -/
theorem bf16EncResult : Obligations.Bf16EncResult := by
  unfold Obligations.Bf16EncResult
  intro s b e m
  have he : f32Exp b = e := f32Exp_eq b
  have hm : f32Man b = m := f32Man_eq b
  have hnan : f32IsNan b = true ↔ e = 0xFF ∧ m ≠ 0 := he ▸ hm ▸ f32IsNan_iff b
  refine ⟨fun h => ?nan, fun h => ?flush, fun h0 hn => ?round⟩
  case nan => exact exec_bf16Enc (zextHalf_bf16Encode_of_nan (hnan.2 h))
  case flush => exact exec_bf16Enc (zextHalf_bf16Encode_of_exp_zero (he.trans h))
  case round =>
    have h0' : f32Exp b ≠ 0 := he ▸ h0
    have hn' : f32IsNan b = false := Bool.eq_false_iff.2 (mt hnan.1 hn)
    exact ⟨fun h => exec_bf16Enc (zextHalf_bf16Encode_of_roundsUp h0' hn' h),
      fun h => exec_bf16Enc (zextHalf_bf16Encode_of_not_roundsUp h0' hn' h)⟩

/-! ## BF16_DEC -/

/-- Decoding OPA[15:0] is shifting OPA: the shift drops OPA[31:16]. -/
theorem bf16Decode_operand16 (s : State) : bf16Decode (operand16 s) = s.opa <<< 16 := by
  rw [← BitVec.toNat_inj, bf16Decode_toNat, operand16_toNat, BitVec.toNat_shiftLeft, Nat.shiftLeft_eq]
  omega

/-- R138: the completion with OPA shifted. -/
theorem exec_bf16Dec (s : State) : exec .bf16Dec s = .next (withResult s (s.opa <<< 16)) :=
  bf16Decode_operand16 s ▸ complete_eq_withResult (bf16Decode (operand16 s)) s

/-- Settles O35: the meaning is the completion with OPA shifted in every state, so also in the one that holds the
word. -/
theorem bf16DecResult : Obligations.Bf16DecResult := by
  unfold Obligations.Bf16DecResult
  exact fun s => ⟨exec_bf16Dec s, writeGives_of_slot_none (i := .bf16Dec) rfl (exec_bf16Dec _)⟩

end Sys2Proof.Claim
end

section
/-! PROOFS. FP16_ENC and FP16_DEC (42_float16.md R151 to R161): what each packs of the fields of OPA, as a number. -/

namespace Sys2Proof.Claim

open Sys2Proof.Machine

/-! ## The sign of a pattern -/

theorem f32Sign_toNat (b : Word) : (f32Sign b).toNat = b.toNat / 2 ^ 31 := by
  obtain ⟨hb, he, hm⟩ := f32_split b
  omega

theorem f16Sign_toNat (h : Half) : (f16Sign h).toNat = h.toNat / 2 ^ 15 := by
  obtain ⟨hh, he, hm⟩ := f16_split h
  omega

/-! ## FP16_ENC -/

/-- R153: an infinity keeps no mantissa. -/
theorem fp16Encode_of_inf (fill : BitVec 10) {b : Word} (he : f32Exp b = 255) (hm : f32Man b = 0) :
    fp16Encode fill b = f16Pack (f32Sign b) 31 0 := by
  rw [fp16Encode_top fill b he, if_pos hm]

/-- R153: a NaN keeps the top 10 bits of its mantissa when they are not all 0. -/
theorem fp16Encode_of_nan_top (fill : BitVec 10) {b : Word} (he : f32Exp b = 255) (hm : f32Man b ≠ 0)
    (htop : f32Man b / 2 ^ 13 ≠ 0) : fp16Encode fill b = f16Pack (f32Sign b) 31 (f32Man b / 2 ^ 13) := by
  rw [fp16Encode_top fill b he, if_neg hm, f16NanMan, if_neg htop]

/-- R153: a NaN whose top 10 mantissa bits are all 0 gets `FP16_NAN_FILL`. -/
theorem fp16Encode_of_nan_fill (fill : BitVec 10) {b : Word} (he : f32Exp b = 255) (hm : f32Man b ≠ 0)
    (htop : f32Man b / 2 ^ 13 = 0) : fp16Encode fill b = f16Pack (f32Sign b) 31 fill.toNat := by
  rw [fp16Encode_top fill b he, if_neg hm, f16NanMan, if_pos htop]

/-- R156: the completion with the zero-extended pattern that OPA encodes to, given by its fields. -/
theorem exec_fp16Enc {s : State} {e m r : Nat} (he : e < 32) (hm : m < 2 ^ 10)
    (h : fp16Encode s.cfg.fp16NanFill s.opa = f16Pack (f32Sign s.opa) e m) (hr : e * 2 ^ 10 + m = r) :
    exec .fp16Enc s = .next (withResult s (BitVec.ofNat 32 (s.opa.toNat / 2 ^ 31 * 2 ^ 15 + r))) := by
  have hres : zextHalf (fp16Encode s.cfg.fp16NanFill s.opa) =
      BitVec.ofNat 32 (s.opa.toNat / 2 ^ 31 * 2 ^ 15 + r) := by
    have hopa := s.opa.isLt
    rw [← BitVec.toNat_inj, zextHalf_toNat, h, f16Pack_toNat he hm, f32Sign_toNat, BitVec.toNat_ofNat, Nat.add_assoc,
      hr, Nat.mod_eq_of_lt (by omega)]
  exact hres ▸ complete_eq_withResult (zextHalf (fp16Encode s.cfg.fp16NanFill (operand32 s))) s

/-- Settles O36: FP16_ENC completes with the encoding of OPA, whose fields each case of R151 to R155 gives. -/
theorem fp16EncResult : Obligations.Fp16EncResult := by
  unfold Obligations.Fp16EncResult
  intro s b e m sign gives
  have he : f32Exp b = e := f32Exp_eq b
  have hm : f32Man b = m := f32Man_eq b
  have hlt : f32Man s.opa < 2 ^ 23 := (f32_split s.opa).2.2
  rw [← he, ← hm]
  refine ⟨fun h => ?zero, fun h h' => ?subnormal, fun h h' => ?normal, fun h h' => ?overflow, fun h h0 => ?inf,
    fun h h0 htop => ?nan, fun h h0 htop => ?fill⟩
  case zero => exact exec_fp16Enc (by decide) (by decide) (fp16Encode_zero _ b h) rfl
  case subnormal =>
    exact exec_fp16Enc (by decide) (fp16_subnormal_lt b h h') (fp16Encode_subnormal _ b h h') (by omega)
  case normal => exact exec_fp16Enc (by omega) (by omega) (fp16Encode_normal _ b h h') rfl
  case overflow => exact exec_fp16Enc (by decide) (by decide) (fp16Encode_overflow _ b h h') rfl
  case inf => exact exec_fp16Enc (by decide) (by decide) (fp16Encode_of_inf _ h h0) rfl
  case nan => exact exec_fp16Enc (by decide) (by omega) (fp16Encode_of_nan_top _ h h0 htop) rfl
  case fill => exact exec_fp16Enc (by decide) (BitVec.isLt _) (fp16Encode_of_nan_fill _ h h0 htop) rfl

/-! ## FP16_DEC -/

theorem f16Exp_operand16 (s : State) : f16Exp (operand16 s) = s.opa.toNat % 2 ^ 16 / 2 ^ 10 % 32 := by
  rw [f16Exp_eq, operand16_toNat]

theorem f16Man_operand16 (s : State) : f16Man (operand16 s) = s.opa.toNat % 2 ^ 16 % 2 ^ 10 := by
  rw [f16Man_eq, operand16_toNat]

/-- R161: the completion with the pattern that OPA[15:0] decodes to, given by its fields. -/
theorem exec_fp16Dec {s : State} {e m r : Nat}
    (h : fp16Decode (operand16 s) = f32Pack (f16Sign (operand16 s)) e m) (hr : e * 2 ^ 23 + m = r) :
    exec .fp16Dec s = .next (withResult s (BitVec.ofNat 32 (s.opa.toNat % 2 ^ 16 / 2 ^ 15 * 2 ^ 31 + r))) := by
  have hres : fp16Decode (operand16 s) = BitVec.ofNat 32 (s.opa.toNat % 2 ^ 16 / 2 ^ 15 * 2 ^ 31 + r) := by
    rw [h, f32Pack, f16Sign_toNat, operand16_toNat, Nat.add_assoc, hr]
  exact hres ▸ complete_eq_withResult (fp16Decode (operand16 s)) s

/-- R158 with the highest set bit of the mantissa given by its bounds. -/
theorem fp16Decode_of_highest_bit {h : Half} {p : Nat} (he : f16Exp h = 0) (hlo : 2 ^ p ≤ f16Man h)
    (hhi : f16Man h < 2 ^ (p + 1)) :
    fp16Decode h = f32Pack (f16Sign h) (113 - (10 - p)) ((f16Man h * 2 ^ (10 - p) - 2 ^ 10) * 2 ^ 13) := by
  have h0 : f16Man h ≠ 0 := ((Nat.two_pow_pos p).trans_le hlo).ne'
  have hp : Nat.log2 (f16Man h) = p := (Nat.log2_eq_iff h0).2 ⟨hlo, hhi⟩
  rw [fp16Decode_subnormal h he h0, hp]

/-- Settles O37: FP16_DEC completes with the decoding of OPA[15:0], whose fields each case of R157 to R160 gives. -/
theorem fp16DecResult : Obligations.Fp16DecResult := by
  unfold Obligations.Fp16DecResult
  intro s h e m sign gives
  have he : f16Exp (operand16 s) = e := f16Exp_operand16 s
  have hm : f16Man (operand16 s) = m := f16Man_operand16 s
  rw [← he, ← hm]
  refine ⟨fun h0 hm0 => ?zero, fun h0 p hlo hhi => ?subnormal, fun h31 => ?top, fun hlo hhi => ?normal⟩
  case zero => exact exec_fp16Dec (fp16Decode_zero _ h0 hm0) rfl
  case subnormal => exact exec_fp16Dec (fp16Decode_of_highest_bit h0 hlo hhi) rfl
  case top => exact exec_fp16Dec (fp16Decode_top _ h31) rfl
  case normal => exact exec_fp16Dec (fp16Decode_normal _ (by omega) (by omega)) rfl

end Sys2Proof.Claim
end

section
/-! PROOFS. The errors of a CMD write (60_exceptions.md R220 to R226): the cause of each status code said once, each
cause reporting its code and changing nothing but CMD and STATUS, and no CMD write doing otherwise unless it
succeeds. -/

namespace Sys2Proof.Claim

open Sys2Proof.Machine

/-! ## The word of a block command -/

/-- The word of a block command selects it in a unit that has its slot (R92, R95). -/
theorem decode_encode_of_slot_some {n : Nat} {i : Instr} {k : Fin 16} (hi : i.slot? = some k) (hk : k.val < n) :
    decode n (encode i) = .ok i := by
  obtain ⟨hrsvd, hop, hslot⟩ := Laws.EncodedFields.of_slot hi
  have hs : slotField (encode i) = k := Fin.ext (by rw [hslot, Instr.slotNumber, hi])
  rw [decode, if_pos hrsvd, hop, hs]
  cases i with
  | f32ToBits | bitsToF32 | bf16Enc | bf16Dec | fp16Enc | fp16Dec => cases hi
  | q8Enc _ | q4Enc _ | qDec _ | qDestroy _ =>
    cases hi
    exact decodeBlock_eq_ok.2 ⟨hk, rfl⟩

/-- A word that selects a command is that command's own word, and the slot the command names exists (R92, R95). -/
theorem eq_encode_of_decode {n : Nat} {w : Word} {i : Instr} (h : decode n w = .ok i) :
    w = encode i ∧ ∀ k, i.slot? = some k → k.val < n := by
  rw [decode] at h
  split at h
  case isFalse => cases h
  case isTrue hr =>
    have hw := (word_eq_fields w).1
    obtain ⟨hop, ⟨hi, hs⟩ | ⟨hi, hs⟩⟩ := decodeFields_eq_ok h
    · refine ⟨BitVec.eq_of_toNat_eq ?_, by simp [hi]⟩
      simp [encode_toNat, hw, hop, hr, hs, Instr.slotNumber, hi]
    · refine ⟨BitVec.eq_of_toNat_eq ?_, by simpa [hi] using hs⟩
      simp [encode_toNat, hw, hop, hr, Instr.slotNumber, hi]

theorem encodeCmd_slot (kind : BlockKind) (k : Fin 16) : (encodeCmd kind k).slot? = some k := by
  cases kind <;> rfl

/-- A CMD write of a block command's word leaves what the command leaves of the state that holds the word. -/
theorem writeGives_of_slot_some {s t : State} {i : Instr} {k : Fin 16} (hi : i.slot? = some k)
    (hk : k.val < s.cfg.numSlots) (h : exec i { s with cmd := encode i } = .next t) : WriteGives s 0x00 (encode i) t :=
  writeGives_register (by decide) (by decide) ((writeCmd_of_decode (decode_encode_of_slot_some hi hk)).trans h)

/-! ## Causes -/

/-- When a CMD write of `w` in state `s` reports an error: the column of the error table (R221 to R225) with the order
of R226 worked in. -/
def ErrorCause (s : State) (w : Word) : StatusCode → Prop
  | .ok => False
  | .invalidSize => ∃ kind k, w = encode (encodeCmd kind k) ∧ k.val < s.cfg.numSlots ∧ s.len = 0
  | .allocFail => ∃ kind k, w = encode (encodeCmd kind k) ∧ k.val < s.cfg.numSlots ∧ s.len ≠ 0 ∧
      (s.cfg.nMax < s.len.toNat ∨ (s.slot k).valid = true)
  | .noBlock => ∃ k, (w = encode (.qDec k) ∨ w = encode (.qDestroy k)) ∧ k.val < s.cfg.numSlots ∧
      (s.slot k).valid = false
  | .illegalCmd => ¬ LegalWord s.cfg.numSlots w

theorem encodeInto_of_large_or_live {kind : BlockKind} {k : Fin 16} {s : State} (hk : k.val < s.cfg.numSlots)
    (hl : s.len ≠ 0) (hv : s.cfg.nMax < s.len.toNat ∨ (s.slot k).valid = true) :
    encodeInto kind k s = .next (finish .allocFail s) := by
  by_cases hn : s.cfg.nMax < s.len.toNat
  · exact encodeInto_of_large hk hl hn
  · exact encodeInto_of_live hk hl (Nat.not_lt.1 hn) (hv.resolve_left hn)

/-- R220: an error's cause makes the write report it and keep everything else but CMD. -/
theorem writeGives_of_errorCause {s : State} {w : Word} {c : StatusCode} (h : ErrorCause s w c) :
    WriteGives s 0x00 w { s with cmd := w, status := c.toWord } := by
  cases c with
  | ok => exact h.elim
  | invalidSize =>
    obtain ⟨kind, k, rfl, hk, hl⟩ := h
    exact writeGives_of_slot_some (encodeCmd_slot kind k) hk ((exec_encodeCmd ..).trans (encodeInto_of_zero hk hl))
  | allocFail =>
    obtain ⟨kind, k, rfl, hk, hl, hv⟩ := h
    exact writeGives_of_slot_some (encodeCmd_slot kind k) hk
      ((exec_encodeCmd ..).trans (encodeInto_of_large_or_live hk hl hv))
  | noBlock =>
    obtain ⟨k, rfl | rfl, hk, hv⟩ := h
    · exact writeGives_of_slot_some rfl hk (exec_qDec_of_empty hk ((not_valid_iff _).1 hv))
    · exact writeGives_of_slot_some rfl hk (exec_qDestroy_of_empty hk ((not_valid_iff _).1 hv))
  | illegalCmd => exact writeGives_of_not_legalWord h

/-- A command that its word selects succeeds, or fails for a cause of that word. -/
theorem errorCause_of_completion {s t : State} {i : Instr}
    (hslot : ∀ k, i.slot? = some k → k.val < s.cfg.numSlots)
    (h : Completion { s with cmd := encode i } i t) :
    t.status = 0 ∨ ∃ c, ErrorCause s (encode i) c ∧ t = { s with cmd := encode i, status := c.toWord } := by
  cases h with
  | illegalSlot hi hk => exact absurd (hslot _ hi) (Nat.not_lt.2 hk)
  | invalidSize kind hk hl => exact .inr ⟨.invalidSize, ⟨kind, _, rfl, hk, hl⟩, rfl⟩
  | allocFail kind hk hl hv => exact .inr ⟨.allocFail, ⟨kind, _, rfl, hk, hl, hv⟩, rfl⟩
  | noBlock hi hk hb =>
    exact .inr ⟨.noBlock, ⟨_, hi.imp (congrArg encode) (congrArg encode), hk, (not_valid_iff _).2 hb⟩, rfl⟩
  | scalar | encoded | decoded | destroyed => exact .inl rfl

/-- A CMD write succeeds, or has an error's cause and does no more than report it. -/
theorem status_zero_or_errorCause {s t : State} {w : Word} (h : WriteGives s 0x00 w t) :
    t.status = 0 ∨ ∃ c, ErrorCause s w c ∧ t = { s with cmd := w, status := c.toWord } := by
  have hw : writeCmd w s = .next t := (writeGives_iff w t (by decide) (by decide)).1 h
  by_cases hlegal : LegalWord s.cfg.numSlots w
  · obtain ⟨i, hi⟩ := (exists_decode_iff_legalWord _ w).2 hlegal
    obtain ⟨rfl, hslot⟩ := eq_encode_of_decode hi
    exact errorCause_of_completion hslot (completion_of_exec ((writeCmd_of_decode hi).symm.trans hw))
  · rw [writeCmd_of_not_legalWord hlegal] at hw
    exact .inr ⟨.illegalCmd, hlegal, (Host.Outcome.next.inj hw).symm⟩

/-- A write has one outcome. -/
theorem writeGives_unique {s t u : State} {off : Nat} {w : Word} (ht : WriteGives s off w t)
    (hu : WriteGives s off w u) : t = u := Host.Outcome.next.inj (ht.symm.trans hu)

/-- The five codes are five different words (R221). -/
theorem toWord_inj {c d : StatusCode} : c.toWord = d.toWord → c = d := by
  cases c <;> cases d <;> decide

/-- A CMD write ends with an error's code exactly when it has the error's cause. -/
theorem status_eq_iff_errorCause {s t : State} {w : Word} (h : WriteGives s 0x00 w t) {c : StatusCode}
    (hc : c ≠ .ok) : t.status = c.toWord ↔ ErrorCause s w c := by
  constructor
  · intro hs
    obtain h0 | ⟨d, hd, rfl⟩ := status_zero_or_errorCause h
    · exact absurd ((toWord_eq_zero c).1 (hs.symm.trans h0)) hc
    · exact toWord_inj hs ▸ hd
  · intro hcause
    rw [writeGives_unique h (writeGives_of_errorCause hcause)]

/-! ## The error table and the order -/

/-- Settles O26: the write ends with 0 or with the code of its cause, and a cause determines the whole next state. -/
theorem errorTable : Obligations.ErrorTable := by
  unfold Obligations.ErrorTable
  intro s t w (h : WriteGives s 0x00 w t)
  refine ⟨status_eq_iff_errorCause h (c := .invalidSize) (by decide),
    status_eq_iff_errorCause h (c := .allocFail) (by decide),
    status_eq_iff_errorCause h (c := .noBlock) (by decide),
    status_eq_iff_errorCause h (c := .illegalCmd) (by decide), ?_⟩
  obtain h0 | ⟨c, _, rfl⟩ := status_zero_or_errorCause h
  · exact ⟨by simp [h0], fun hne => absurd h0 hne⟩
  · exact ⟨toWord_toNat_le c, fun _ => rfl⟩

/-- Settles O27: the conditions of each place in the order are the cause of its code. -/
theorem errorPriority : Obligations.ErrorPriority := by
  unfold Obligations.ErrorPriority
  intro s k kind
  refine ⟨fun w => writeGives_of_not_legalWord, fun hk => ⟨fun hl => ?zero, fun hl hn => ?large, fun hl _ hv => ?live⟩,
    fun hk hv => ⟨?decode, ?destroy⟩⟩
  case zero => exact writeGives_of_errorCause (c := .invalidSize) ⟨kind, k, rfl, hk, hl⟩
  case large => exact writeGives_of_errorCause (c := .allocFail) ⟨kind, k, rfl, hk, hl, .inl hn⟩
  case live => exact writeGives_of_errorCause (c := .allocFail) ⟨kind, k, rfl, hk, hl, .inr hv⟩
  case decode => exact writeGives_of_errorCause (c := .noBlock) ⟨k, .inl rfl, hk, hv⟩
  case destroy => exact writeGives_of_errorCause (c := .noBlock) ⟨k, .inr rfl, hk, hv⟩

end Sys2Proof.Claim
end

section
/-! PROOFS. The reset input (70_reset_and_hazards.md R250), and a slot that holds no block (R251): of all steps only an
encode of it that succeeds fills it. -/

namespace Sys2Proof.Claim

open Sys2Proof.Machine

/-! ## The reset input -/

theorem step_reset {s : State} {rest : List HostEvent} (hp : s.pending = .reset :: rest) :
    step s = .next (State.resetWith s.cfg s.nextDraw rest s.reads) := step_cons hp

theorem valid_slot_resetWith (c : Config) (n : Nat) (p : List HostEvent) (r : List Word) (k : Fin 16) :
    ((State.resetWith c n p r).slot k).valid = false := by simp [Slot.valid]

/-- Every code of a slot that is not live is the free value of its tag (R46). -/
theorem code_free_of_not_valid {sl : Slot} (h : sl.valid = false) (i : Nat) :
    sl.code i = Config.freeCode sl.draw i := by
  have hcodes : sl.codes = [] := by rw [Slot.codes, (not_valid_iff sl).1 h]
  exact code_beyond_codes i (by simp [hcodes])

/-- Settles O17: the next state is `State.resetWith`, whose slots are not live and whose arrays are unwritten. -/
theorem resetInputResetsEverything : Obligations.ResetInputResetsEverything := by
  unfold Obligations.ResetInputResetsEverything
  intro s rest hp
  refine ⟨_, step_reset hp, rfl, rfl, rfl, rfl, rfl, rfl, fun k => ?slot, fun i => ⟨?inWord, ?outWord⟩⟩
  case slot =>
    have hv := valid_slot_resetWith s.cfg s.nextDraw rest s.reads k
    obtain ⟨hkind, hblen, hscale⟩ := slot_free_of_not_valid hv
    exact ⟨hv, hkind, hblen, hscale, code_free_of_not_valid hv⟩
  case inWord => exact unwritten_read s.nextDraw i
  case outWord => exact unwritten_read (s.nextDraw + 1) i

/-! ## What fills a slot -/

theorem slot_encoded (kind : BlockKind) (j k : Fin 16) (s : State) : (encoded kind j s).slot k =
    if k = j then { block := some (newBlock kind s), draw := s.nextDraw } else s.slot k := slot_setBlock s j k _

theorem slot_destroyed (j k : Fin 16) (s : State) :
    (destroyed j s).slot k = if k = j then { block := none, draw := s.nextDraw } else s.slot k := slot_setBlock s j k _

/-- A command under which a slot without a block gets one is an encode of that slot, and it succeeds. -/
theorem eq_encodeCmd_of_completion_fills {s t : State} {i : Instr} {k : Fin 16} (h : Completion s i t)
    (hs : (s.slot k).valid = false) (ht : (t.slot k).valid = true) :
    ∃ kind, i = encodeCmd kind k ∧ t.status = 0 := by
  cases h with
  | illegalSlot | invalidSize | allocFail | noBlock | scalar | decoded => cases hs.symm.trans ht
  | @encoded kind j =>
    rw [slot_encoded] at ht
    split at ht
    case isTrue hkj => exact ⟨kind, hkj ▸ rfl, rfl⟩
    case isFalse => cases hs.symm.trans ht
  | @destroyed j =>
    rw [slot_destroyed] at ht
    split at ht
    case isTrue => cases ht
    case isFalse => cases hs.symm.trans ht

/-- A host write that is not to CMD keeps the slots. -/
theorem slots_of_writeLoc {w : Word} {s t : State} {loc : WindowLoc} (hloc : loc ≠ .cmd)
    (h : writeLoc w s loc = .next t) : t.slots = s.slots := by
  obtain ⟨hcmd, _⟩ | ⟨_, e⟩ | ⟨_, e⟩ | ⟨_, _, e⟩ | ⟨_, e⟩ := writeLoc_cases w s loc
  · exact absurd hcmd hloc
  all_goals
    cases e.symm.trans h
    rfl

/-- Everything a step can do to the slots: the reset input, a CMD write, or nothing. -/
theorem slots_of_step {s t : State} (h : step s = .next t) :
    (∃ rest, t = State.resetWith s.cfg s.nextDraw rest s.reads) ∨
    (∃ w rest, s.pending = .write 4 s.cfg.ffcBase w :: rest ∧ writeCmd w { s with pending := rest } = .next t) ∨
    t.slots = s.slots := by
  match hp : s.pending with
  | [] =>
    cases (step_nil hp).symm.trans h
    exact .inr (.inr rfl)
  | .reset :: rest => exact .inl ⟨rest, Host.Outcome.next.inj (h.symm.trans (step_reset hp))⟩
  | .read width addr :: rest =>
    rw [step_cons hp, perform] at h
    split at h
    · cases h
      exact .inr (.inr rfl)
    · cases h
  | .write width addr w :: rest =>
    rw [step_cons hp] at h
    obtain ⟨hin, rfl, -, hacc⟩ | ⟨-, -, hacc⟩ | ⟨-, hacc⟩ := accessLoc_cases s.cfg width addr
    · simp only [perform, hacc] at h
      by_cases hcmd : locate s.cfg (addr - s.cfg.ffcBase) = .cmd
      · have hoff := locate_cmd hcmd
        have hbase := ((inWindow_iff _ _).1 hin).1
        obtain rfl : addr = s.cfg.ffcBase := by omega
        rw [hcmd] at h
        exact .inr (.inl ⟨w, rest, rfl, h⟩)
      · exact .inr (.inr (slots_of_writeLoc (s := { s with pending := rest }) hcmd h))
    all_goals
      simp only [perform, hacc] at h
      cases h

/-- A CMD write under which a slot without a block gets one selects an encode of that slot, and it succeeds. -/
theorem decode_eq_encodeCmd_of_writeCmd_fills {s t : State} {w : Word} {k : Fin 16} (h : writeCmd w s = .next t)
    (hs : (s.slot k).valid = false) (ht : (t.slot k).valid = true) :
    ∃ kind, decode s.cfg.numSlots w = .ok (encodeCmd kind k) ∧ t.status = 0 := by
  obtain ⟨i, hi, e⟩ | ⟨_, _, e⟩ := writeCmd_cases w s
  · obtain ⟨kind, rfl, h0⟩ := eq_encodeCmd_of_completion_fills (completion_of_exec (e.symm.trans h)) hs ht
    exact ⟨kind, hi, h0⟩
  · cases e.symm.trans h
    cases hs.symm.trans ht

/-- Settles O20: the reset state has no live slot; of what a step can do to the slots only a CMD write can fill one; and
without a block the two commands find none. -/
theorem emptySlotGivesNoBlockUntilEncoded : Obligations.EmptySlotGivesNoBlockUntilEncoded := by
  unfold Obligations.EmptySlotGivesNoBlockUntilEncoded
  refine ⟨fun s t rest k hp h => ?reset, fun s t k hs h ht => ?fill, fun s k hk hv => ?noBlock⟩
  case reset =>
    cases (step_reset hp).symm.trans h
    exact valid_slot_resetWith ..
  case fill =>
    obtain ⟨rest, rfl⟩ | ⟨w, rest, hp, hw⟩ | hkept := slots_of_step h
    · cases (valid_slot_resetWith ..).symm.trans ht
    · obtain ⟨kind, hdec, h0⟩ := decode_eq_encodeCmd_of_writeCmd_fills hw hs ht
      exact ⟨kind, w, rest, hp, hdec, h0⟩
    · rw [State.slot, hkept] at ht
      cases hs.symm.trans ht
  case noBlock =>
    have hb := (not_valid_iff _).1 hv
    exact ⟨exec_qDec_of_empty hk hb, exec_qDestroy_of_empty hk hb⟩

end Sys2Proof.Claim
end

section
/-! PROOFS. The decoder and the encoder are inverse to each other (30_encoding.md §2, §3, §5). -/

namespace Sys2Proof.Claim

open Sys2Proof.Machine

theorem wf_iff_slot_lt (n : Nat) (i : Instr) : i.wf n = true ↔ ∀ k, i.slot? = some k → k.val < n := by
  rw [Instr.wf]
  cases i.slot? <;> simp

/-- A well-formed command's word selects it. -/
theorem decode_encode_of_wf {n : Nat} {i : Instr} (h : i.wf n = true) : decode n (encode i) = .ok i := by
  match hi : i.slot? with
  | none => exact decode_encode_of_slot_none n hi
  | some k => exact decode_encode_of_slot_some hi ((wf_iff_slot_lt n i).1 h k hi)

/-- Settles O1: a decoded word is its command's word and the slot exists; the word of a command whose slot exists
decodes to it. -/
theorem decodeIsInverseOfEncode : Obligations.DecodeIsInverseOfEncode := by
  unfold Obligations.DecodeIsInverseOfEncode
  intro n w i
  constructor
  · intro h
    obtain ⟨rfl, hslot⟩ := eq_encode_of_decode h
    exact ⟨(wf_iff_slot_lt n i).2 hslot, rfl⟩
  · rintro ⟨hwf, rfl⟩
    exact decode_encode_of_wf hwf

/-- Settles O4: twelve closed words. -/
theorem commandWordsDecode : Obligations.CommandWordsDecode := by
  unfold Obligations.CommandWordsDecode
  decide

end Sys2Proof.Claim
end

section
/-! PROOFS. What a command leaves alone: each field that only some completions write (10_state.md §3 to §5;
60_exceptions.md §1). -/

namespace Sys2Proof.Claim

open Sys2Proof.Machine

/-- No completion writes CMD, OPA, LEN, IN, the configuration or the host's two lists. -/
theorem frame_of_completion {s t : State} {i : Instr} (h : Completion s i t) :
    t.cmd = s.cmd ∧ t.opa = s.opa ∧ t.len = s.len ∧ t.inArr = s.inArr ∧ t.cfg = s.cfg ∧
      t.pending = s.pending ∧ t.reads = s.reads := by
  cases h <;> exact ⟨rfl, rfl, rfl, rfl, rfl, rfl, rfl⟩

/-- Settles O24: the frame of every completion. -/
theorem commandsKeepOperandsAndConfig : Obligations.CommandsKeepOperandsAndConfig := by
  unfold Obligations.CommandsKeepOperandsAndConfig
  exact fun _ _ _ h => frame_of_completion (completion_of_exec h)

/-- Settles O23: an error is `finish` of the state before, and the other completions end with STATUS 0. -/
theorem failingCommandChangesOnlyStatus : Obligations.FailingCommandChangesOnlyStatus := by
  unfold Obligations.FailingCommandChangesOnlyStatus
  intro i s t h hne
  cases completion_of_exec h with
  | illegalSlot | invalidSize | allocFail | noBlock => rfl
  | scalar | encoded | decoded | destroyed => exact absurd rfl hne

theorem outArr_of_completion {s t : State} {i : Instr} (h : Completion s i t) (hi : ∀ k, i ≠ .qDec k) :
    t.outArr = s.outArr := by
  cases h with
  | decoded => exact absurd rfl (hi _)
  | illegalSlot | invalidSize | allocFail | noBlock | scalar | encoded | destroyed => rfl

theorem slot_of_completion {s t : State} {i : Instr} {k : Fin 16} (h : Completion s i t)
    (henc : ∀ kind, i ≠ encodeCmd kind k) (hdes : i ≠ .qDestroy k) : t.slot k = s.slot k := by
  cases h with
  | illegalSlot | invalidSize | allocFail | noBlock | scalar | decoded => rfl
  | @encoded kind j =>
    have hkj : k ≠ j := fun e => henc kind (e ▸ rfl)
    rw [slot_encoded, if_neg hkj]
  | @destroyed j =>
    have hkj : k ≠ j := fun e => hdes (e ▸ rfl)
    rw [slot_destroyed, if_neg hkj]

/-- Settles O25: of the completions only a decoded block writes OUT, and only an encode or a release a slot, its own. -/
theorem onlyNamedCommandsWriteOutAndSlots : Obligations.OnlyNamedCommandsWriteOutAndSlots := by
  unfold Obligations.OnlyNamedCommandsWriteOutAndSlots
  intro i s t h
  have hc := completion_of_exec h
  refine ⟨outArr_of_completion hc, fun k h8 h4 hdes => slot_of_completion hc (fun kind => ?_) hdes⟩
  cases kind
  · exact h8
  · exact h4

end Sys2Proof.Claim
end

section
/-! PROOFS. Steps: everything an event can do, said once, and from it the order of the events, the idle unit, the
accesses of the host that only store, and programs that never stop (20_memory.md §2, §3; 70_reset_and_hazards.md §5). -/

namespace Sys2Proof.Claim

open Sys2Proof.Machine

/-! ## What an event does -/

/-- Everything an event can do to a state: a read records a value, a write does what the write of its place does, and
the reset input resets. -/
inductive Performed (s : State) : HostEvent → State → Prop where
  | read {width addr : Nat} (v : Word) : Performed s (.read width addr) { s with reads := v :: s.reads }
  | write {width addr : Nat} {w : Word} {loc : WindowLoc} {t : State} (hacc : accessLoc s.cfg width addr = .ok loc)
      (h : writeLoc w s loc = .next t) : Performed s (.write width addr w) t
  | reset : Performed s .reset (State.resetWith s.cfg s.nextDraw s.pending s.reads)

theorem performed_of_perform {s t : State} {e : HostEvent} (h : perform e s = .next t) : Performed s e t := by
  cases e with
  | read width addr =>
    rw [perform] at h
    split at h
    · cases h; exact .read _
    · cases h
  | write width addr w =>
    rw [perform] at h
    split at h
    case h_1 loc hacc => exact .write hacc h
    case h_2 => cases h
  | reset => cases h; exact .reset

/-- Everything a host write can do to a place: a command or ILLEGAL_CMD after CMD is stored, a stored operand, or
nothing. -/
inductive Written (s : State) (w : Word) : WindowLoc → State → Prop where
  | command {i : Instr} {t : State} (h : Completion { s with cmd := w } i t) : Written s w .cmd t
  | illegal : Written s w .cmd (finish .illegalCmd { s with cmd := w })
  | opa : Written s w .opa { s with opa := w }
  | len : Written s w .len { s with len := w }
  | inWord (i : Nat) : Written s w (.inWord i) { s with inArr := s.inArr.write i w }
  | ignored {loc : WindowLoc} (hloc : loc ≠ .cmd) : Written s w loc s

theorem written_of_writeLoc {s t : State} {w : Word} {loc : WindowLoc} (h : writeLoc w s loc = .next t) :
    Written s w loc t := by
  obtain ⟨rfl, e⟩ | ⟨rfl, e⟩ | ⟨rfl, e⟩ | ⟨i, rfl, e⟩ | ⟨hloc, e⟩ := writeLoc_cases w s loc <;> rw [e] at h
  · obtain ⟨i, _, e'⟩ | ⟨r, _, e'⟩ := writeCmd_cases w s <;> rw [e'] at h
    · exact .command (completion_of_exec h)
    · cases h; exact .illegal
  · cases h; exact .opa
  · cases h; exact .len
  · cases h; exact .inWord i
  · cases h; exact .ignored hloc

/-- No write changes the configuration or the host's two lists. -/
theorem host_frame_of_written {s t : State} {w : Word} {loc : WindowLoc} (h : Written s w loc t) :
    t.pending = s.pending ∧ t.cfg = s.cfg ∧ t.reads = s.reads := by
  cases h with
  | command hc =>
    obtain ⟨-, -, -, -, hcfg, hpending, hreads⟩ := frame_of_completion hc
    exact ⟨hpending, hcfg, hreads⟩
  | illegal | opa | len | inWord | ignored => exact ⟨rfl, rfl, rfl⟩

/-- Settles O6: the rule of a step with nothing pending. -/
theorem idleUnitKeepsState : Obligations.IdleUnitKeepsState := by
  unfold Obligations.IdleUnitKeepsState
  exact fun _ => step_nil

/-- Settles O8: the step performs the event on the state without it, and each event is one of three kinds. -/
theorem eventsHappenOneByOneInOrder : Obligations.EventsHappenOneByOneInOrder := by
  unfold Obligations.EventsHappenOneByOneInOrder
  intro s t e rest hp h
  rw [step_cons hp] at h
  cases performed_of_perform h with
  | read v => exact ⟨rfl, rfl, fun hne => absurd rfl (hne _ _), fun _ _ _ => ⟨v, rfl⟩⟩
  | write hacc hw =>
    obtain ⟨hpending, hcfg, hreads⟩ := host_frame_of_written (written_of_writeLoc hw)
    exact ⟨hpending, hcfg, fun _ => hreads, fun _ _ he => by cases he⟩
  | reset => exact ⟨rfl, rfl, fun _ => rfl, fun _ _ he => by cases he⟩

/-! ## The CMD write in a step -/

/-- A word of 32 bits is its own table word. -/
theorem tableWord_toNat (w : Word) : tableWord 32 w.toNat = w := by
  rw [tableWord, Nat.mod_eq_of_lt w.isLt, BitVec.ofNat_toNat, BitVec.setWidth_eq]

/-- The step of a CMD write is the CMD write. -/
theorem step_cmd {s : State} {w : Word} {rest : List HostEvent} (hp : s.pending = .write 4 s.cfg.ffcBase w :: rest) :
    step s = writeCmd w { s with pending := rest } := step_write (off := 0) (by decide) rfl hp

/-- Settles O5: the step of a CMD write runs the command its word selects, or raises ILLEGAL_CMD. -/
theorem stepRunsDecodedCommand : Obligations.StepRunsDecodedCommand := by
  unfold Obligations.StepRunsDecodedCommand
  intro s w
  refine ⟨fun i hi => ⟨fun rest hp => ?pending, ?fetched⟩, fun r hr => ?illegal⟩
  case pending => exact (step_cmd hp).trans (writeCmd_of_decode (s := { s with pending := rest }) hi)
  case fetched =>
    have hp : (s.withFetchWord 32 w.toNat).pending = .write 4 s.cfg.ffcBase w :: s.pending := by
      rw [withFetchWord_pending, tableWord_toNat]
    exact (step_cmd hp).trans (writeCmd_of_decode (s := s) hi)
  case illegal =>
    refine writeGives_of_not_legalWord fun hlegal => ?_
    obtain ⟨i, hi⟩ := (exists_decode_iff_legalWord _ w).2 hlegal
    cases hi.symm.trans hr

/-! ## Writes that store -/

theorem readIn_write (s : State) (i j : Nat) (w : Word) :
    State.readIn { s with inArr := s.inArr.write i w } j = if j = i then w else s.readIn j := read_write s.inArr i j w

theorem writeGives_in {s : State} {i : Nat} (w : Word) (hi : i < 2 ^ 18) (h : i < s.cfg.nMax) :
    WriteGives s (0x100000 + 4 * i) w { s with inArr := s.inArr.write i w } := by
  rw [writeGives_iff w _ (by omega) (by omega), locate_in s.cfg i hi, if_pos h]
  rfl

/-- Settles O15: the three places store the word, and an array reads back what was written. -/
theorem operandWritesOnlyStore : Obligations.OperandWritesOnlyStore := by
  unfold Obligations.OperandWritesOnlyStore
  intro s w hlegal
  obtain ⟨_, ⟨_, hn⟩, _⟩ := hlegal
  refine ⟨writeGives_register (by decide) (by decide) rfl, writeGives_register (by decide) (by decide) rfl,
    fun i hi => ⟨_, writeGives_in w (by omega) hi, rfl, ?_, fun j hj => ?_⟩⟩
  · rw [readIn_write, if_pos rfl]
  · rw [readIn_write, if_neg hj]

/-- An access that has a place reaches it from the window's base. -/
theorem locate_of_accessLoc {c : Config} {width addr : Nat} {loc : WindowLoc} (h : accessLoc c width addr = .ok loc) :
    c.ffcBase ≤ addr ∧ locate c (addr - c.ffcBase) = loc := by
  obtain ⟨hin, -, -, hacc⟩ | ⟨-, -, hacc⟩ | ⟨-, hacc⟩ := accessLoc_cases c width addr
  · exact ⟨((inWindow_iff _ _).1 hin).1, Except.ok.inj (hacc.symm.trans h)⟩
  all_goals cases hacc.symm.trans h

/-- An access that reaches CMD is at the window's base. -/
theorem addr_eq_of_accessLoc_cmd {c : Config} {width addr : Nat} (h : accessLoc c width addr = .ok .cmd) :
    addr = c.ffcBase := by
  obtain ⟨hbase, hloc⟩ := locate_of_accessLoc h
  have hoff := locate_cmd hloc
  omega

/-- Settles O16: a write elsewhere stores OPA, LEN or an IN element, or does nothing. -/
theorem operandWritesKeepResultsAndBlocks : Obligations.OperandWritesKeepResultsAndBlocks := by
  unfold Obligations.OperandWritesKeepResultsAndBlocks
  intro s t width addr w rest hp hne h
  rw [step_cons hp] at h
  cases performed_of_perform h with
  | write hacc hw =>
    cases written_of_writeLoc hw with
    | command | illegal => exact absurd (addr_eq_of_accessLoc_cmd hacc) hne
    | opa | len | inWord | ignored => exact ⟨rfl, rfl, rfl, rfl, rfl⟩

/-! ## Programs that never stop -/

theorem exists_next_writeLoc (w : Word) (s : State) (loc : WindowLoc) : ∃ t, writeLoc w s loc = .next t := by
  obtain ⟨-, e⟩ | ⟨-, e⟩ | ⟨-, e⟩ | ⟨_, -, e⟩ | ⟨-, e⟩ := writeLoc_cases w s loc
  · obtain ⟨i, -, e'⟩ | ⟨_, -, e'⟩ := writeCmd_cases w s
    · obtain ⟨t, ht, -⟩ := exec_completes i { s with cmd := w }
      exact ⟨t, e.trans (e'.trans ht)⟩
    · exact ⟨_, e.trans e'⟩
  all_goals exact ⟨_, e⟩

theorem accessLoc_of_aligned {c : Config} {width addr : Nat}
    (h : inWindow c addr = true ∧ width = 4 ∧ (addr - c.ffcBase) % 4 = 0) :
    accessLoc c width addr = .ok (locate c (addr - c.ffcBase)) := by
  obtain ⟨hin, hw, h4⟩ := h
  rw [accessLoc, if_pos hin, if_pos ⟨hw, h4⟩]

/-- An event the spec gives a meaning has a next state. -/
theorem exists_next_perform {s : State} {e : HostEvent} (h : Meaningful s.cfg e) : ∃ t, perform e s = .next t := by
  cases e with
  | read width addr => exact ⟨_, by rw [perform, accessLoc_of_aligned h]⟩
  | write width addr w =>
    obtain ⟨t, ht⟩ := exists_next_writeLoc w s (locate s.cfg (addr - s.cfg.ffcBase))
    exact ⟨t, by rw [perform, accessLoc_of_aligned h]; exact ht⟩
  | reset => exact ⟨_, rfl⟩

/-- A step of a meaningful program leaves a meaningful program. -/
theorem exists_next_step_meaningful {s : State} (h : ∀ e ∈ s.pending, Meaningful s.cfg e) :
    ∃ t, step s = .next t ∧ ∀ e ∈ t.pending, Meaningful t.cfg e := by
  match hp : s.pending with
  | [] => exact ⟨s, step_nil hp, h⟩
  | e :: rest =>
    rw [hp] at h
    obtain ⟨t, ht⟩ := exists_next_perform (s := { s with pending := rest }) (h e List.mem_cons_self)
    have hstep := (step_cons hp).trans ht
    obtain ⟨hpending, hcfg, -⟩ := eventsHappenOneByOneInOrder s t e rest hp hstep
    refine ⟨t, hstep, ?_⟩
    rw [hpending, hcfg]
    exact fun e' he' => h e' (List.mem_cons_of_mem e he')

theorem run_succ {M : Host.Core} {n : Nat} {s t : M.State} (h : M.step s = .next t) : M.run (n + 1) s = M.run n t := by
  rw [Host.Core.run, h]

theorem runsFor_succ {n : Nat} {s t : State} (h : step s = .next t) (ht : RunsFor n t) : RunsFor (n + 1) s := by
  obtain ⟨u, hu⟩ := ht
  exact ⟨u, (run_succ (M := core) h).trans hu⟩

/-- Settles O9, by induction on the number of steps: each one has a next state and leaves a meaningful program. -/
theorem meaningfulProgramNeverStops : Obligations.MeaningfulProgramNeverStops := by
  unfold Obligations.MeaningfulProgramNeverStops
  intro s h n
  induction n generalizing s with
  | zero => exact ⟨s, rfl⟩
  | succ n ih =>
    obtain ⟨t, hstep, ht⟩ := exists_next_step_meaningful h
    exact runsFor_succ hstep (ih t ht)

end Sys2Proof.Claim
end

section
/-! PROOFS. The invariant of the state (10_state.md §5): each update keeps it, so every step does. -/

namespace Sys2Proof.Claim

open Sys2Proof.Machine

/-! ## The tags of the draws -/

/-- A reset draws under eighteen consecutive tags. -/
theorem tags_resetWith (c : Config) (t : Nat) (p : List HostEvent) (r : List Word) :
    (State.resetWith c t p r).tags = List.range' t 18 := rfl

theorem tags_setBlock (s : State) (k : Fin 16) (b : Option Block) :
    (s.setBlock k b).tags =
      s.inArr.draw :: s.outArr.draw :: (s.slots.toList.map Slot.draw).set k.val s.nextDraw := by
  simp [State.tags, Vector.toList_set, List.map_set]

theorem mem_tags_setBlock {s : State} {k : Fin 16} {b : Option Block} {x : Nat} (h : x ∈ (s.setBlock k b).tags) :
    x ∈ s.tags ∨ x = s.nextDraw := by
  rw [tags_setBlock, List.mem_cons, List.mem_cons] at h
  rw [State.tags, List.mem_cons, List.mem_cons]
  obtain h | h | h := h
  · exact .inl (.inl h)
  · exact .inl (.inr (.inl h))
  · exact (List.mem_or_eq_of_mem_set h).imp_left fun h => .inr (.inr h)

/-- A slot written under an unused tag shares its tag with nothing. -/
theorem nodup_tags_setBlock {s : State} (k : Fin 16) (b : Option Block) (h : s.tags.Nodup)
    (hlt : ∀ x ∈ s.tags, x < s.nextDraw) : (s.setBlock k b).tags.Nodup := by
  have hnew : s.nextDraw ∉ s.tags := fun hmem => Nat.lt_irrefl _ (hlt _ hmem)
  rw [State.tags, List.mem_cons, List.mem_cons, not_or, not_or] at hnew
  obtain ⟨hin, hout, hslots⟩ := hnew
  rw [State.tags, List.nodup_cons, List.nodup_cons, List.mem_cons, not_or] at h
  obtain ⟨⟨hio, his⟩, hos, hss⟩ := h
  have hset : ∀ x, x ∉ s.slots.toList.map Slot.draw → s.nextDraw ≠ x →
      x ∉ (s.slots.toList.map Slot.draw).set k.val s.nextDraw := fun x hx hne hmem =>
    (List.mem_or_eq_of_mem_set hmem).elim hx fun e => hne e.symm
  rw [tags_setBlock, List.nodup_cons, List.nodup_cons, List.mem_cons, not_or]
  exact ⟨⟨hio, hset _ his hin⟩, hset _ hos hout, hss.set hslots⟩

/-- Settles O18: the tags after a reset are the eighteen from the next unused one on. -/
theorem resetDrawsAreFresh : Obligations.ResetDrawsAreFresh := by
  unfold Obligations.ResetDrawsAreFresh
  intro s t rest hp h
  cases (step_reset hp).symm.trans h
  rw [tags_resetWith]
  refine ⟨List.nodup_range', fun x hx => ?_, rfl, rfl⟩
  have := List.mem_range'_1.1 hx
  exact ⟨this.1, this.2⟩

/-- Settles O19: the reset state is `State.resetWith` of the reference configuration. -/
theorem resetStateValues : Obligations.ResetStateValues := by
  unfold Obligations.ResetStateValues
  exact ⟨rfl, rfl, rfl, rfl, rfl, rfl, fun k => valid_slot_resetWith _ _ _ _ k, fun i => unwritten_read _ i,
    fun i => unwritten_read _ i⟩

/-! ## Each update keeps the invariant -/

theorem resetWith_wf {c : Config} (hc : c.Legal) (t : Nat) (p : List HostEvent) (r : List Word) :
    (State.resetWith c t p r).Wf := by
  refine ⟨hc, by simp, unwritten_wf _ _, unwritten_wf _ _, fun k b hb => ?_, ?_, fun x hx => ?_⟩
  · simp at hb
  · rw [tags_resetWith]; exact List.nodup_range'
  · rw [tags_resetWith] at hx
    exact (List.mem_range'_1.1 hx).2

/-- Settles O21: the reference configuration is legal. -/
theorem resetStateIsWellFormed : Obligations.ResetStateIsWellFormed := by
  unfold Obligations.ResetStateIsWellFormed
  exact resetWith_wf (by decide) 0 [] []

theorem finish_wf (c : StatusCode) {s : State} (h : s.Wf) : (finish c s).Wf := by
  obtain ⟨hc, _, hin, hout, hslots, htags, hlt⟩ := h
  exact ⟨hc, toWord_toNat_le c, hin, hout, hslots, htags, hlt⟩

theorem setBlock_wf {s : State} {k : Fin 16} {b : Option Block} (h : s.Wf)
    (hb : ∀ x ∈ b, k.val < s.cfg.numSlots ∧ x.Wf s.cfg) : (s.setBlock k b).Wf := by
  obtain ⟨hc, hstatus, hin, hout, hslots, htags, hlt⟩ := h
  refine ⟨hc, hstatus, hin, hout, fun j x hx => ?slot, nodup_tags_setBlock k b htags hlt, fun x hx => ?tag⟩
  case slot =>
    rw [slot_setBlock] at hx
    split at hx
    case isTrue hjk => exact hjk ▸ hb x hx
    case isFalse => exact hslots j x hx
  case tag =>
    show x < s.nextDraw + 1
    obtain hx | rfl := mem_tags_setBlock hx
    · exact Nat.lt_succ_of_lt (hlt x hx)
    · exact Nat.lt_succ_self _

theorem decodedWords_length (s : State) (k : Fin 16) (b : Block) : (decodedWords s k b).length = b.blen.toNat := by
  simp [decodedWords]

theorem decoded_wf {s : State} {k : Fin 16} {b : Block} (h : s.Wf) (hb : (s.slot k).block = some b) :
    (decoded k b s).Wf := by
  obtain ⟨hc, hstatus, hin, hout, hslots, htags, hlt⟩ := h
  obtain ⟨_, _, hblen, _⟩ := hslots k b hb
  have hlen : (decodedWords s k b).length ≤ s.cfg.nMax := by rwa [decodedWords_length]
  exact finish_wf .ok (s := { s with outArr := _, res := _ })
    ⟨hc, hstatus, hin, writePrefix_wf hout hlen, hslots, htags, hlt⟩

theorem completion_wf {s t : State} {i : Instr} (h : Completion s i t) (hs : s.Wf) : t.Wf := by
  cases h with
  | illegalSlot | invalidSize | allocFail | noBlock => exact finish_wf _ hs
  | scalar hi r => exact finish_wf .ok (s := { s with res := r }) hs
  | encoded kind hk hl hn hv =>
    refine finish_wf .ok (s := { s.setBlock _ _ with res := _ }) (setBlock_wf hs fun b hb => ?_)
    cases hb
    exact ⟨hk, newBlock_wf hs.1 hl hn⟩
  | decoded hk hb => exact decoded_wf hs hb
  | destroyed hk hb => exact finish_wf .ok (setBlock_wf hs fun b hb => by cases hb)

theorem written_wf {s t : State} {w : Word} {loc : WindowLoc} (h : Written s w loc t)
    (hin : ∀ i, loc = .inWord i → i < s.cfg.nMax) (hs : s.Wf) : t.Wf := by
  cases h with
  | command hc => exact completion_wf hc hs
  | illegal => exact finish_wf _ (s := { s with cmd := w }) hs
  | opa | len | ignored => exact hs
  | inWord i =>
    obtain ⟨hc, hstatus, hia, hout, hslots, htags, hlt⟩ := hs
    exact ⟨hc, hstatus, write_wf w hia (hin i rfl), hout, hslots, htags, hlt⟩

/-- An access that reaches an IN element reaches one that exists. -/
theorem lt_nMax_of_accessLoc_inWord {c : Config} {width addr i : Nat} (h : accessLoc c width addr = .ok (.inWord i)) :
    i < c.nMax := locate_inWord (locate_of_accessLoc h).2

theorem performed_wf {s t : State} {e : HostEvent} (h : Performed s e t) (hs : s.Wf) : t.Wf := by
  cases h with
  | read v => exact hs
  | write hacc hw =>
    exact written_wf (written_of_writeLoc hw) (fun i hi => lt_nMax_of_accessLoc_inWord (hi ▸ hacc)) hs
  | reset => exact resetWith_wf hs.1 _ _ _

/-- Settles O22: an idle step keeps the state, and each thing an event can do keeps the invariant. -/
theorem stepKeepsWellFormed : Obligations.StepKeepsWellFormed := by
  unfold Obligations.StepKeepsWellFormed
  intro s t hs h
  match hp : s.pending with
  | [] =>
    cases (step_nil hp).symm.trans h
    exact hs
  | e :: rest =>
    exact performed_wf (performed_of_perform ((step_cons hp).symm.trans h)) (s := { s with pending := rest }) hs

end Sys2Proof.Claim
end

section
/-! PROOFS. The scalar commands over several states (40_bitview.md R122; 30_encoding.md R96), and bfloat16: nearest
pattern, NaNs, and where encode after decode is the identity (41_bfloat16.md R134, R139, R140). -/

namespace Sys2Proof.Claim

open Sys2Proof.Machine

/-! ## Scalar commands -/

/-- Settles O30: both commands complete with OPA. -/
theorem bitViewRoundTrip : Obligations.BitViewRoundTrip := by
  unfold Obligations.BitViewRoundTrip
  exact fun s b h => ⟨_, _, _, _, exec_bitsToF32 s, exec_f32ToBits _, h, exec_f32ToBits s, exec_bitsToF32 _, h⟩

theorem operand16_eq_of_mod_eq {s : State} {a : Word} (h : a.toNat % 2 ^ 16 = s.opa.toNat % 2 ^ 16) :
    operand16 { s with opa := a } = operand16 s := by
  rw [← BitVec.toNat_inj, operand16_toNat, operand16_toNat]
  exact h

/-- Settles O38: each of the two completes with a function of OPA[15:0]. -/
theorem halfDecodesIgnoreUpperOpa : Obligations.HalfDecodesIgnoreUpperOpa := by
  unfold Obligations.HalfDecodesIgnoreUpperOpa
  intro s a ha i hi
  have hop := operand16_eq_of_mod_eq ha
  simp only [List.mem_cons, List.not_mem_nil, or_false] at hi
  obtain rfl | rfl := hi
  · exact ⟨_, _, rfl, rfl, congrArg bf16Decode hop, rfl⟩
  · exact ⟨_, _, rfl, rfl, congrArg fp16Decode hop, rfl⟩

/-! ## bfloat16 -/

/-- Settles O32: the encoding is the upper half, or one more when the low half is above the halfway point or at it
below an odd upper half. -/
theorem bf16EncodeRoundsToNearestEven : Obligations.Bf16EncodeRoundsToNearestEven := by
  unfold Obligations.Bf16EncodeRoundsToNearestEven
  intro b h0 hn
  have henc := bf16Encode_toNat b h0 hn
  simp only [gap, ne_eq, ← BitVec.toNat_inj]
  generalize (bf16Encode b).toNat = r at henc ⊢
  by_cases hup : Bf16RoundsUp b
  · rw [if_pos hup] at henc
    exact ⟨fun h => by omega, fun h hne heq => by omega⟩
  · rw [if_neg hup] at henc
    exact ⟨fun h => by omega, fun h hne heq => by omega⟩

/-- R131 as a number: the quiet bit is set in the upper half. -/
theorem bf16Encode_toNat_of_nan {b : Word} (h : f32IsNan b = true) :
    (bf16Encode b).toNat =
      if b.toNat / 2 ^ 16 / 64 % 2 = 1 then b.toNat / 2 ^ 16 else b.toNat / 2 ^ 16 + 64 := by
  rw [bf16Encode, if_pos h, BitVec.toNat_or, upperHalf_toNat]
  exact or_bit6 _

/-- Settles O33: setting bit 6 leaves the exponent and the sign of the upper half. -/
theorem bf16EncodeKeepsNan : Obligations.Bf16EncodeKeepsNan := by
  unfold Obligations.Bf16EncodeKeepsNan
  intro b h
  have hexp := ((f32IsNan_iff b).1 h).1
  have henc := bf16Encode_toNat_of_nan h
  rw [f32Exp_eq] at hexp
  simp only [bits_def, henc]
  split <;> omega

theorem upperHalf_bf16Decode (x : Half) : upperHalf (bf16Decode x) = x := by
  rw [← BitVec.toNat_inj, upperHalf_toNat, bf16Decode_toNat, Nat.mul_div_cancel _ (by decide)]

theorem f32Exp_bf16Decode (x : Half) : f32Exp (bf16Decode x) = bits x 14 7 := by
  rw [f32Exp_eq, bf16Decode_toNat, bits_def]
  omega

theorem f32Man_bf16Decode (x : Half) : f32Man (bf16Decode x) = bits x 6 0 * 2 ^ 16 := by
  rw [f32Man_eq, bf16Decode_toNat, bits_def]
  omega

theorem f32IsNan_bf16Decode (x : Half) : f32IsNan (bf16Decode x) = true ↔ bits x 14 7 = 255 ∧ bits x 6 0 ≠ 0 := by
  rw [f32IsNan_iff, f32Exp_bf16Decode, f32Man_bf16Decode]
  omega

theorem bf16Encode_bf16Decode_of_nan {x : Half} (he : bits x 14 7 = 255) (hm : bits x 6 0 ≠ 0) :
    bf16Encode (bf16Decode x) = x ||| 0x0040 := by
  rw [bf16Encode, if_pos ((f32IsNan_bf16Decode x).2 ⟨he, hm⟩), upperHalf_bf16Decode]

theorem bf16Encode_bf16Decode_of_exp_zero {x : Half} (he : bits x 14 7 = 0) :
    bf16Encode (bf16Decode x) = x &&& 0x8000 := by
  have hn : ¬ f32IsNan (bf16Decode x) = true := by rw [f32IsNan_bf16Decode]; omega
  rw [bf16Encode, if_neg hn, if_pos ((f32Exp_bf16Decode x).trans he), upperHalf_bf16Decode]

/-- The low half of a decoded pattern is 0, so nothing is rounded. -/
theorem bf16Encode_bf16Decode_of_normal {x : Half} (he : bits x 14 7 ≠ 0)
    (hn : ¬ (bits x 14 7 = 255 ∧ bits x 6 0 ≠ 0)) : bf16Encode (bf16Decode x) = x := by
  have hn' : f32IsNan (bf16Decode x) = false := Bool.eq_false_iff.2 (mt (f32IsNan_bf16Decode x).1 hn)
  rw [← BitVec.toNat_inj, bf16Encode_toNat _ (by rwa [f32Exp_bf16Decode]) hn', bf16Decode_toNat, if_neg (by omega)]
  omega

theorem or_0x0040_eq_self_iff (x : Half) : x ||| 0x0040 = x ↔ bits x 6 6 = 1 := by
  have h : (x ||| 0x0040).toNat = if x.toNat / 64 % 2 = 1 then x.toNat else x.toNat + 64 :=
    (BitVec.toNat_or ..).trans (or_bit6 _)
  rw [← BitVec.toNat_inj, h, bits_def]
  split <;> omega

theorem and_0x8000_eq_self_iff (x : Half) : x &&& 0x8000 = x ↔ bits x 14 0 = 0 := by
  have h : (x &&& 0x8000).toNat = x.toNat / 2 ^ 15 * 2 ^ 15 := (BitVec.toNat_and ..).trans (and_bit15 _ x.isLt)
  rw [← BitVec.toNat_inj, h, bits_def]
  omega

/-- Settles O34: a NaN gets bit 6, exponent 0 keeps the sign alone, anything else is kept. -/
theorem bf16IdempotenceDomain : Obligations.Bf16IdempotenceDomain := by
  unfold Obligations.Bf16IdempotenceDomain
  intro x subnormal signalling
  have hparts : bits x 6 0 = bits x 6 6 * 64 + bits x 5 0 ∧ bits x 14 0 = bits x 14 7 * 128 + bits x 6 0 ∧
      bits x 6 6 < 2 := by
    simp only [bits_def]; omega
  refine ⟨?domain, fun h => bf16Encode_bf16Decode_of_exp_zero h.1,
    fun h => bf16Encode_bf16Decode_of_nan h.1 (by omega)⟩
  by_cases he : bits x 14 7 = 0
  · rw [bf16Encode_bf16Decode_of_exp_zero he, and_0x8000_eq_self_iff]
    omega
  · by_cases hn : bits x 14 7 = 255 ∧ bits x 6 0 ≠ 0
    · rw [bf16Encode_bf16Decode_of_nan hn.1 hn.2, or_0x0040_eq_self_iff]
      omega
    · exact iff_of_true (bf16Encode_bf16Decode_of_normal he hn) (by omega)

end Sys2Proof.Claim
end

section
/-! PROOFS. float16 (42_float16.md R162 to R164): decode is exact, encode after decode is the identity, encode
truncates. -/

namespace Sys2Proof.Claim

open Sys2Proof.Machine

/-! ## Decode -/

/-- The magnitude of a decoded finite pattern: the same, in units of 2^-149 (R162). -/
theorem fp16Decode_mag {h : Half} (he : f16Exp h ≠ 31) : f32Mag (fp16Decode h) = f16Mag h * 2 ^ 125 := by
  obtain ⟨-, ⟨he0, hm0, e, m⟩ | ⟨k, he0, hm0, hk1, hk10, hlo, hhi, e, m⟩ | ⟨he31, -, -⟩ | ⟨he0, -, e, m⟩⟩ :=
    fp16Decode_fields h
  · rw [f32Mag, f16Mag, if_pos e, if_pos he0, m, hm0, Nat.zero_mul]
  · rw [f32Mag, f16Mag, if_neg (by omega), if_pos he0, e, m, show 113 - k - 1 = 112 - k by omega]
    have hman : 2 ^ 23 + (f16Man h * 2 ^ k - 2 ^ 10) * 2 ^ 13 = f16Man h * 2 ^ k * 2 ^ 13 := by omega
    have hpow : 2 ^ k * 2 ^ 13 * 2 ^ (112 - k) = 2 ^ 125 := by
      rw [← Nat.pow_add, ← Nat.pow_add, show k + 13 + (112 - k) = 125 by omega]
    rw [hman, Nat.mul_assoc, Nat.mul_assoc, ← Nat.mul_assoc (2 ^ k), hpow]
  · exact absurd he31 he
  · rw [f32Mag, f16Mag, if_neg (by omega), if_neg he0, e, m,
      show f16Exp h + 112 - 1 = f16Exp h - 1 + 112 by omega, Nat.pow_add]
    ring

theorem fp16Decode_isFinite {h : Half} (he : f16Exp h ≠ 31) : f32IsFinite (fp16Decode h) = true := by
  rw [f32IsFinite_iff]
  obtain ⟨-, ⟨-, -, e, -⟩ | ⟨k, -, -, -, -, -, -, e, -⟩ | ⟨he31, -, -⟩ | ⟨-, -, e, -⟩⟩ := fp16Decode_fields h
  · omega
  · omega
  · exact absurd he31 he
  · have := (f16_split h).2.1
    omega

theorem fp16Decode_top_fields {h : Half} (he : f16Exp h = 31) :
    f32Exp (fp16Decode h) = 255 ∧ f32Man (fp16Decode h) = f16Man h * 2 ^ 13 := by
  obtain ⟨-, ⟨he0, -⟩ | ⟨k, he0, -⟩ | ⟨-, e, m⟩ | ⟨-, he31, -⟩⟩ := fp16Decode_fields h
  · omega
  · omega
  · exact ⟨e, m⟩
  · exact absurd he he31

theorem f32Sign_fp16Decode (h : Half) : f32Sign (fp16Decode h) = f16Sign h := (fp16Decode_fields h).1

/-- Settles O39: the fields of the decoded pattern, in the cases of R157 to R160. -/
theorem fp16DecodeIsExact : Obligations.Fp16DecodeIsExact := by
  unfold Obligations.Fp16DecodeIsExact
  refine fun h => ⟨f32Sign_fp16Decode h, fun he => ⟨fp16Decode_isFinite he, fp16Decode_mag he⟩, fun he hm => ?_⟩
  obtain ⟨e, m⟩ := fp16Decode_top_fields he
  rw [f32IsInf_iff, e, m, hm]
  exact ⟨rfl, rfl⟩

/-! ## Encode after decode -/

/-- A float16 pattern packed from its own fields. -/
theorem f16Pack_self (h : Half) : f16Pack (f16Sign h) (f16Exp h) (f16Man h) = h := by
  obtain ⟨hh, he, hm⟩ := f16_split h
  rw [← BitVec.toNat_inj, f16Pack_toNat he hm, ← hh]

/-- Settles O40: in each case of R157 to R160 the encode packs the fields the decode unpacked. -/
theorem fp16EncodeAfterDecode : Obligations.Fp16EncodeAfterDecode := by
  unfold Obligations.Fp16EncodeAfterDecode
  intro fill h
  have hlt := (f16_split h).2.1
  conv_rhs => rw [← f16Pack_self h]
  obtain ⟨hs, ⟨he0, hm0, e, m⟩ | ⟨k, he0, hm0, hk1, hk10, hlo, hhi, e, m⟩ | ⟨he31, e, m⟩ | ⟨he0, he31, e, m⟩⟩ :=
    fp16Decode_fields h
  · rw [fp16Encode_zero fill _ (by omega), hs, he0, hm0]
  · rw [fp16Encode_subnormal fill _ (by omega) (by omega), hs, he0, e, m]
    have hman : 2 ^ 23 + (f16Man h * 2 ^ k - 2 ^ 10) * 2 ^ 13 = f16Man h * 2 ^ (126 - (113 - k)) := by
      rw [show 126 - (113 - k) = k + 13 by omega, Nat.pow_add, ← Nat.mul_assoc]
      omega
    rw [hman, Nat.mul_div_cancel _ (by positivity)]
  · rw [fp16Encode_top fill _ e, hs, m, he31, f16NanMan, m, Nat.mul_div_cancel _ (by decide)]
    by_cases hm0 : f16Man h = 0
    · rw [hm0, Nat.zero_mul, if_pos rfl]
    · rw [if_neg (by omega), if_neg hm0]
  · rw [fp16Encode_normal fill _ (by omega) (by omega), hs, e, m, Nat.mul_div_cancel _ (by decide), Nat.add_sub_cancel]

/-! ## Encode -/

theorem f32Mag_of_exp_ne_zero {b : Word} (h : f32Exp b ≠ 0) :
    f32Mag b = (2 ^ 23 + f32Man b) * 2 ^ (f32Exp b - 1) := if_neg h

theorem f32Mag_lt_of_exp_le {b : Word} {e : Nat} (h : f32Exp b ≤ e) (he : e ≠ 0) : f32Mag b < 2 ^ (e + 23) := by
  have hm := (f32_split b).2.2
  rw [show e + 23 = 24 + (e - 1) by omega, Nat.pow_add]
  rw [f32Mag]
  split
  · have := Nat.two_pow_pos (e - 1)
    omega
  · exact Nat.mul_lt_mul_of_lt_of_le (by omega) (Nat.pow_le_pow_right (by decide) (by omega)) (Nat.two_pow_pos _)

theorem le_f32Mag_of_le_exp {b : Word} {e : Nat} (h : e ≤ f32Exp b) (he : e ≠ 0) : 2 ^ (e + 22) ≤ f32Mag b := by
  rw [show e + 22 = 23 + (e - 1) by omega, Nat.pow_add, f32Mag_of_exp_ne_zero (by omega)]
  exact Nat.mul_le_mul (by omega) (Nat.pow_le_pow_right (by decide) (by omega))

theorem f32Exp_lt_of_mag_lt {b : Word} {e : Nat} (he : e ≠ 0) (h : f32Mag b < 2 ^ (e + 22)) : f32Exp b < e :=
  Nat.lt_of_not_le fun hc => Nat.not_le_of_lt h (le_f32Mag_of_le_exp hc he)

theorem lt_f32Exp_of_le_mag {b : Word} {e : Nat} (he : e ≠ 0) (h : 2 ^ (e + 23) ≤ f32Mag b) : e < f32Exp b :=
  Nat.lt_of_not_le fun hc => Nat.not_le_of_lt (f32Mag_lt_of_exp_le hc he) h

/-- The fields R151 and R152 give below 2^-24. -/
theorem fp16Encode_fields_tiny (fill : BitVec 10) {b : Word} (h : f32Exp b ≤ 102) :
    f16Exp (fp16Encode fill b) = 0 ∧ f16Man (fp16Encode fill b) = 0 := by
  have henc : fp16Encode fill b = f16Pack (f32Sign b) 0 0 := by
    by_cases h102 : f32Exp b = 102
    · have hm := (f32_split b).2.2
      rw [fp16Encode_subnormal fill b (by omega) (by omega), h102, Nat.div_eq_of_lt (by omega)]
    · exact fp16Encode_zero fill b (by omega)
  rw [henc]
  exact (f16Pack_fields (by decide) (by decide)).2

theorem fp16Encode_fields_subnormal (fill : BitVec 10) {b : Word} (h : 102 ≤ f32Exp b) (h' : f32Exp b ≤ 112) :
    f16Exp (fp16Encode fill b) = 0 ∧ f16Man (fp16Encode fill b) = (2 ^ 23 + f32Man b) / 2 ^ (126 - f32Exp b) := by
  rw [fp16Encode_subnormal fill b h h']
  exact (f16Pack_fields (by decide) (fp16_subnormal_lt b h h')).2

theorem fp16Encode_fields_normal (fill : BitVec 10) {b : Word} (h : 113 ≤ f32Exp b) (h' : f32Exp b ≤ 142) :
    f16Exp (fp16Encode fill b) = f32Exp b - 112 ∧ f16Man (fp16Encode fill b) = f32Man b / 2 ^ 13 := by
  have hm := (f32_split b).2.2
  rw [fp16Encode_normal fill b h h']
  exact (f16Pack_fields (by omega) (by omega)).2

/-- The fields R154 gives an overflow, and R153 an infinity. -/
theorem fp16Encode_fields_inf (fill : BitVec 10) {b : Word} (h : 143 ≤ f32Exp b) (hn : f32Exp b = 255 → f32Man b = 0) :
    f16Exp (fp16Encode fill b) = 31 ∧ f16Man (fp16Encode fill b) = 0 := by
  have henc : fp16Encode fill b = f16Pack (f32Sign b) 31 0 := by
    by_cases he : f32Exp b = 255
    · exact fp16Encode_of_inf fill he (hn he)
    · have hlt := (f32_split b).2.1
      exact fp16Encode_overflow fill b h (by omega)
  rw [henc]
  exact (f16Pack_fields (by decide) (by decide)).2

theorem fp16Encode_fields_nan {fill : BitVec 10} {b : Word} (hfill : fill ≠ 0) (h : f32IsNan b = true) :
    f16Exp (fp16Encode fill b) = 31 ∧ f16Man (fp16Encode fill b) ≠ 0 := by
  obtain ⟨he, hm⟩ := (f32IsNan_iff b).1 h
  have hne : f16NanMan fill b ≠ 0 := by
    rw [f16NanMan]
    split
    · exact fun h0 => hfill (BitVec.eq_of_toNat_eq h0)
    · assumption
  obtain ⟨-, hexp, hman⟩ := f16Pack_fields (s := f32Sign b) (e := 31) (by decide) (f16NanMan_lt fill b)
  rw [fp16Encode_top fill b he, if_neg hm, hexp, hman]
  exact ⟨rfl, hne⟩

/-- What truncation means of a finite pattern: the result's magnitude is at most the operand's, and less than one last
place below it (R164). -/
def Truncates (h : Half) (b : Word) : Prop :=
  f16Exp h ≠ 31 ∧ f16Mag h * 2 ^ 125 ≤ f32Mag b ∧ f32Mag b < f16Mag h * 2 ^ 125 + 2 ^ 125 * 2 ^ (f16Exp h - 1)

theorem fp16Encode_truncates_subnormal (fill : BitVec 10) {b : Word} (h : 102 ≤ f32Exp b) (h' : f32Exp b ≤ 112) :
    Truncates (fp16Encode fill b) b := by
  obtain ⟨e, m⟩ := fp16Encode_fields_subnormal fill h h'
  rw [Truncates, f16Mag, if_pos e, e, m, f32Mag_of_exp_ne_zero (by omega)]
  have hpow : 2 ^ (126 - f32Exp b) * 2 ^ (f32Exp b - 1) = 2 ^ 125 := by
    rw [← Nat.pow_add, show 126 - f32Exp b + (f32Exp b - 1) = 125 by omega]
  have hE := Nat.two_pow_pos (f32Exp b - 1)
  have hdm := Nat.div_add_mod' (2 ^ 23 + f32Man b) (2 ^ (126 - f32Exp b))
  have hmod := Nat.mod_lt (2 ^ 23 + f32Man b) (Nat.two_pow_pos (126 - f32Exp b))
  generalize 2 ^ 23 + f32Man b = X at *
  rw [← hpow]
  generalize 2 ^ (126 - f32Exp b) = D at *
  generalize 2 ^ (f32Exp b - 1) = E at *
  refine ⟨by decide, ?_, ?_⟩
  · rw [← Nat.mul_assoc]
    exact Nat.mul_le_mul_right _ (by omega)
  · calc X * E < (X / D * D + D) * E := Nat.mul_lt_mul_of_pos_right (by omega) hE
      _ = X / D * (D * E) + D * E * 2 ^ (0 - 1) := by ring

theorem fp16Encode_truncates_normal (fill : BitVec 10) {b : Word} (h : 113 ≤ f32Exp b) (h' : f32Exp b ≤ 142) :
    Truncates (fp16Encode fill b) b := by
  obtain ⟨e, m⟩ := fp16Encode_fields_normal fill h h'
  rw [Truncates, f16Mag, if_neg (by omega), e, m, f32Mag_of_exp_ne_zero (by omega),
    show f32Exp b - 1 = f32Exp b - 112 - 1 + 112 by omega, Nat.pow_add]
  have hE := Nat.two_pow_pos (f32Exp b - 112 - 1)
  generalize 2 ^ (f32Exp b - 112 - 1) = E at *
  refine ⟨by omega, ?_, ?_⟩
  · calc (2 ^ 10 + f32Man b / 2 ^ 13) * E * 2 ^ 125 = (2 ^ 10 + f32Man b / 2 ^ 13) * 2 ^ 13 * (E * 2 ^ 112) := by ring
      _ ≤ (2 ^ 23 + f32Man b) * (E * 2 ^ 112) := Nat.mul_le_mul_right _ (by omega)
  · calc (2 ^ 23 + f32Man b) * (E * 2 ^ 112)
        < ((2 ^ 10 + f32Man b / 2 ^ 13) * 2 ^ 13 + 2 ^ 13) * (E * 2 ^ 112) :=
          Nat.mul_lt_mul_of_pos_right (by omega) (by positivity)
      _ = (2 ^ 10 + f32Man b / 2 ^ 13) * E * 2 ^ 125 + 2 ^ 125 * E := by ring

/-- Settles O41: the magnitude places the exponent field, and each range of it gives the result's fields. -/
theorem fp16EncodeTruncates : Obligations.Fp16EncodeTruncates := by
  unfold Obligations.Fp16EncodeTruncates
  intro fill b hfill h
  refine ⟨f16Sign_fp16Encode fill b, fun _ hlt => ?tiny, fun _ hlo hhi => ?range, fun hfin hle => ?large,
    fun hinf => ?inf, fun hnan => fp16Encode_fields_nan hfill hnan⟩
  case tiny => exact fp16Encode_fields_tiny fill (Nat.le_of_lt_succ (f32Exp_lt_of_mag_lt (e := 103) (by decide) hlt))
  case range =>
    have hexp : 102 < f32Exp b := lt_f32Exp_of_le_mag (by decide) hlo
    have hexp' : f32Exp b < 143 := f32Exp_lt_of_mag_lt (by decide) hhi
    by_cases he : f32Exp b ≤ 112
    · exact fp16Encode_truncates_subnormal fill (by omega) he
    · exact fp16Encode_truncates_normal fill (by omega) (by omega)
  case large =>
    exact fp16Encode_fields_inf fill (lt_f32Exp_of_le_mag (e := 142) (by decide) hle) fun he =>
      absurd he ((f32IsFinite_iff b).1 hfin)
  case inf =>
    obtain ⟨he, hm⟩ := (f32IsInf_iff b).1 hinf
    exact fp16Encode_fields_inf fill (by omega) fun _ => hm

end Sys2Proof.Claim
end

section
/-! PROOFS. Binary32 rounding and integer rounding (00_scope.md R19, R20) against every other candidate. -/

namespace Sys2Proof.Claim

open Sys2Proof.Machine

/-! ## fl32 -/

/-- `a` is the nearest of the naturals `b` may be to `v`, and wins a tie only when it `IsEven`. -/
def NearestEven (v a b : Nat) (IsEven : Prop) : Prop :=
  gap a v ≤ gap b v ∧ (gap a v = gap b v → b ≠ a → IsEven)

/-- Of all multiples of `den` the rounded one is the nearest to `num`, and even in a tie. -/
theorem roundNearestEven_nearest (num : Nat) {den : Nat} (hd : 0 < den) (n : Nat) :
    NearestEven num (roundNearestEven num den * den) (n * den) (roundNearestEven num den % 2 = 0) := by
  obtain ⟨hup, hdown, heven⟩ := roundNearestEven_spec (num := num) hd
  generalize roundNearestEven num den = r at *
  unfold NearestEven gap
  rcases Nat.lt_trichotomy n r with h | rfl | h
  · have hstep := Nat.mul_le_mul_right den (Nat.succ_le_of_lt h)
    rw [Nat.succ_mul] at hstep
    exact ⟨by omega, fun heq _ => heven (by omega)⟩
  · exact ⟨Nat.le_refl _, fun _ hne => absurd rfl hne⟩
  · have hstep := Nat.mul_le_mul_right den (Nat.succ_le_of_lt h)
    rw [Nat.succ_mul] at hstep
    exact ⟨by omega, fun heq _ => heven (by omega)⟩

/-- A finer candidate than the last place of the result lies below the least significand with that last place, and the
exact value does not. -/
theorem roundNearestEven_nearest_of_finer {num den n y : Nat} (hd : 0 < den) (hn : n * den ≤ num) (hy : y < n * den)
    (P : Prop) : NearestEven num (roundNearestEven num den * den) y P := by
  obtain ⟨hle, -⟩ := roundNearestEven_nearest num hd n
  unfold NearestEven gap at *
  exact ⟨by omega, fun heq _ => by omega⟩

/-- The rounded significand with its last place is the nearest of all 24-bit significands with any last place. -/
theorem significand_nearest (num : Nat) {den m j : Nat} (hd : 0 < den) (hm : m < 2 ^ 24) :
    NearestEven num (roundNearestEven num (den * 2 ^ ulpShift num den) * (den * 2 ^ ulpShift num den)) (m * 2 ^ j * den)
      (roundNearestEven num (den * 2 ^ ulpShift num den) % 2 = 0) := by
  obtain ⟨-, hlow⟩ := ulpShift_spec num hd
  generalize ulpShift num den = k at *
  have hD : 0 < den * 2 ^ k := by positivity
  by_cases hkj : k ≤ j
  · obtain ⟨d, rfl⟩ := Nat.exists_eq_add_of_le hkj
    rw [show m * 2 ^ (k + d) * den = m * 2 ^ d * (den * 2 ^ k) by rw [Nat.pow_add]; ring]
    exact roundNearestEven_nearest num hD _
  · refine roundNearestEven_nearest_of_finer hD (hlow (by omega)) ?_ _
    obtain ⟨d, rfl⟩ := Nat.exists_eq_add_of_lt (Nat.lt_of_not_le hkj)
    calc m * 2 ^ j * den < 2 ^ 24 * 2 ^ j * den := by gcongr
      _ = 2 ^ 23 * (den * 2 ^ (j + 0 + 1)) := by ring
      _ ≤ 2 ^ 23 * (den * 2 ^ (j + d + 1)) := by gcongr <;> omega

/-- A finite result is the nearest of all finite magnitudes, and has an even mantissa in a tie. -/
theorem fl32_nearest (sg : Bool) (num : Nat) {den : Nat} (hd : 0 < den) (hfin : f32IsFinite (fl32 sg num den) = true)
    {x : Word} (hx : f32IsFinite x = true) :
    NearestEven num (f32Mag (fl32 sg num den) * den) (f32Mag x * den) (f32Man (fl32 sg num den) % 2 = 0) := by
  obtain ⟨m, j, hmag, hm, -⟩ := f32Mag_form x hx
  obtain ⟨hr, hpar⟩ := fl32_mag sg num hd hfin
  rw [hr, hpar, hmag, Nat.mul_assoc, Nat.mul_comm _ den]
  exact significand_nearest num hd hm

/-- Settles O42: sign, NaN and overflow by the result's fields, and the nearest significand otherwise. -/
theorem fl32RoundsToNearestEven : Obligations.Fl32RoundsToNearestEven := by
  unfold Obligations.Fl32RoundsToNearestEven
  refine fun sg num den hd => ⟨(fl32_fields sg num den).1, fl32_notNan sg num den, fl32_isInf_iff_le sg num hd,
    fun hfin x hx => ?_⟩
  obtain ⟨hle, htie⟩ := fl32_nearest sg num hd hfin hx
  exact ⟨hle, fun heq hne => htie heq fun e => hne (Nat.eq_of_mul_eq_mul_right hd e)⟩

/-! ## round_q -/

/-- `round_q` on magnitudes: within one half, a tie away from zero or to even. -/
theorem roundMag_spec (ties : Ties) (m : Nat) :
    2 * gap m (roundMag ties m * 2 ^ 149) ≤ 2 ^ 149 ∧
    (2 * gap m (roundMag ties m * 2 ^ 149) = 2 ^ 149 →
      (ties = .away → m < roundMag ties m * 2 ^ 149) ∧ (ties = .even → roundMag ties m % 2 = 0)) := by
  unfold gap
  cases ties with
  | away =>
    have hspec := roundMag_away_spec m
    generalize roundMag .away m = c at *
    simp only at hspec
    exact ⟨by omega, fun h => ⟨fun _ => by omega, nofun⟩⟩
  | even =>
    obtain ⟨hup, hdown, heven⟩ := roundNearestEven_spec (num := m) (Nat.two_pow_pos 149)
    rw [show roundMag .even m = roundNearestEven m (2 ^ 149) from rfl]
    generalize roundNearestEven m (2 ^ 149) = c at *
    exact ⟨by omega, fun h => ⟨nofun, fun _ => heven (by omega)⟩⟩

/-- The result of `round_q` has the operand's sign and the rounded magnitude. -/
theorem roundQ_natAbs (ties : Ties) (q : Word) : (roundQ ties q).natAbs = roundMag ties (f32Mag q) := by
  rw [roundQ]
  split <;> omega

/-- The error of `round_q` is that of its magnitude. -/
theorem roundQ_error (ties : Ties) (q : Word) :
    (f32Val q - roundQ ties q * 2 ^ 149).natAbs = gap (f32Mag q) (roundMag ties (f32Mag q) * 2 ^ 149) := by
  rw [f32Val, roundQ, gap]
  split <;> omega

/-- Settles O43: `round_q` rounds the magnitude and keeps the sign. -/
theorem roundQIsNearestInteger : Obligations.RoundQIsNearestInteger := by
  unfold Obligations.RoundQIsNearestInteger
  intro ties q _ c err
  obtain ⟨hhalf, htie⟩ := roundMag_spec ties (f32Mag q)
  have herr : err = gap (f32Mag q) (roundMag ties (f32Mag q) * 2 ^ 149) := roundQ_error ties q
  have habs : c.natAbs = roundMag ties (f32Mag q) := roundQ_natAbs ties q
  rw [herr, habs]
  refine ⟨hhalf, fun h => ⟨(htie h).1, fun he => ?_⟩⟩
  have := (htie h).2 he
  omega

end Sys2Proof.Claim
end

section
/-! PROOFS. What an encode, a decode and a release of a block write (43_block_quantizer.md R186, R187, R191, R192), in
any input. -/

namespace Sys2Proof.Claim

open Sys2Proof.Machine

/-! ## The block an encode writes -/

theorem exec_encodeCmd_of_ready {s : State} {k : Fin 16} (kind : BlockKind) (h : EncodeReady s k) :
    exec (encodeCmd kind k) s = .next (encoded kind k s) := by
  obtain ⟨hk, hl, hn, hv⟩ := h
  rw [exec_encodeCmd, encodeInto_of_ready hk hl hn hv]

theorem newBlock_codes_length (kind : BlockKind) (s : State) : (newBlock kind s).codes.length = s.len.toNat := by
  simp [newBlock, encodedBlock, quantize_codes_length, blockValues_length]

/-- Settles O44: the next state of a ready encode, with the block it writes. -/
theorem encodeWritesBlock : Obligations.EncodeWritesBlock := by
  unfold Obligations.EncodeWritesBlock
  exact fun s k kind h =>
    ⟨newBlock kind s, exec_encodeCmd_of_ready kind h, rfl, rfl, newBlock_codes_length kind s⟩

theorem all_finite_iff (s : State) : (blockValues s s.len.toNat).all f32IsFinite = true ↔ FiniteInput s := by
  simp [blockValues]

/-- A code of an encoded block, when its codes are given element by element. -/
theorem encoded_code_eq {kind : BlockKind} {k : Fin 16} {s : State} {f : Nat → Byte}
    (h : (newBlock kind s).codes = (List.range s.len.toNat).map f) {i : Nat} (hi : i < s.len.toNat) :
    ((encoded kind k s).slot k).code i = f i := by
  have hlt : i < (newBlock kind s).codes.length := by rwa [newBlock_codes_length]
  rw [encoded_slot, code_of_block (b := newBlock kind s) rfl i hlt]
  simp [h]

/-- R186: with a NaN or an infinity among the elements the block is drawn. -/
theorem newBlock_of_not_finite {s : State} (kind : BlockKind) (h : ¬ FiniteInput s) :
    (newBlock kind s).scale = Config.freeScale s.nextDraw ∧
    (newBlock kind s).codes =
      (List.range s.len.toNat).map fun i => BitVec.ofInt 8 (freeElementCode s.cfg kind s.nextDraw i) := by
  have hq := quantize_nonfinite (c := s.cfg) (kind := kind) (t := s.nextDraw)
    (Bool.eq_false_iff.2 (mt (all_finite_iff s).1 h))
  rw [blockValues_length] at hq
  simp [newBlock, encodedBlock, hq]

/-- Every code of an encoded block is in its kind's range. -/
theorem encoded_code_range {s : State} {k : Fin 16} (kind : BlockKind) (hc : s.cfg.Legal) (h : EncodeReady s k)
    {i : Nat} (hi : i < s.len.toNat) :
    codeLo s.cfg kind ≤ codeInt kind (((encoded kind k s).slot k).code i) ∧
      codeInt kind (((encoded kind k s).slot k).code i) ≤ codeHi s.cfg kind := by
  obtain ⟨-, hl, hn, -⟩ := h
  have hlt : i < (newBlock kind s).codes.length := by rwa [newBlock_codes_length]
  obtain ⟨-, -, -, hcodes⟩ := newBlock_wf (kind := kind) hc hl hn
  rw [encoded_slot, code_of_block (b := newBlock kind s) rfl i hlt]
  exact hcodes _ (List.getElem_mem hlt)

/-- Settles O47: the block of R187 with the draws of R186. -/
theorem nonFiniteBlockIsDrawn : Obligations.NonFiniteBlockIsDrawn := by
  unfold Obligations.NonFiniteBlockIsDrawn
  intro s k kind hc hready hfin
  obtain ⟨hscale, hcodes⟩ := newBlock_of_not_finite kind hfin
  refine ⟨encoded kind k s, exec_encodeCmd_of_ready kind hready, rfl, ?_, ?_, ?_, ?_, fun i hi =>
    ⟨encoded_code_eq hcodes hi, encoded_code_range kind hc hready hi⟩⟩
  all_goals rw [encoded_slot]
  · rfl
  · rfl
  · rfl
  · exact hscale

/-! ## Decode -/

/-- OUT after a decode: the reconstructed elements, and beyond BLEN what it was. -/
theorem readOut_decoded (k : Fin 16) (b : Block) (s : State) (i : Nat) :
    (decoded k b s).readOut i =
      if i < b.blen.toNat then reconstruct s.cfg b.scale (codeInt b.kind ((s.slot k).code i)) else s.readOut i := by
  have h : (decoded k b s).readOut i = _ := read_writePrefix s.outArr (decodedWords s k b) i
  rw [h]
  by_cases hi : i < b.blen.toNat
  · rw [dif_pos (by rwa [decodedWords_length]), if_pos hi]
    simp [decodedWords]
  · rw [dif_neg (by rwa [decodedWords_length]), if_neg hi]
    rfl

/-- Settles O49: the next state of a decode of a live slot, and its OUT element by element. -/
theorem decodeWritesOut : Obligations.DecodeWritesOut := by
  unfold Obligations.DecodeWritesOut
  intro s k b hk hb
  refine ⟨decoded k b s, exec_qDec_of_live hk hb, rfl, fun i hi => ?_, fun i hi => ?_⟩
  · rw [readOut_decoded, if_pos hi]
  · rw [readOut_decoded, if_neg (Nat.not_lt.2 hi)]

/-- A second decode writes the same words over themselves. -/
theorem decoded_decoded (k : Fin 16) (b : Block) (s : State) : decoded k b (decoded k b s) = decoded k b s := by
  have h : (decoded k b s).outArr.writePrefix (decodedWords s k b) = (decoded k b s).outArr :=
    writePrefix_writePrefix s.outArr (decodedWords s k b)
  exact congrArg (fun a => ({ decoded k b s with outArr := a } : State)) h

/-- Settles O51: a decode that succeeds leaves the slot and the configuration, so the second is the first repeated. -/
theorem decodeIsRepeatable : Obligations.DecodeIsRepeatable := by
  unfold Obligations.DecodeIsRepeatable
  intro s t k hv h h0
  obtain ⟨b, hb⟩ := (valid_iff _).1 hv
  by_cases hk : k.val < s.cfg.numSlots
  · cases (exec_qDec_of_live hk hb).symm.trans h
    rw [exec_qDec_of_live (s := decoded k b s) hk hb, decoded_decoded]
  · cases (onSlot_of_le (Nat.not_lt.1 hk) _).symm.trans h
    cases h0

/-! ## Release -/

theorem block_destroyed (k : Fin 16) (s : State) : ((destroyed k s).slot k).block = none := by
  rw [slot_destroyed, if_pos rfl]

/-- Settles O52: a release leaves the slot without a block, and the two commands then find none. -/
theorem destroyReleasesOnce : Obligations.DestroyReleasesOnce := by
  unfold Obligations.DestroyReleasesOnce
  intro s k hk hv t
  obtain ⟨b, hb⟩ := (valid_iff _).1 hv
  have hnone : (t.slot k).block = none := block_destroyed k s
  exact ⟨exec_qDestroy_of_live hk hb, (not_valid_iff _).2 hnone, exec_qDestroy_of_empty (s := t) hk hnone,
    exec_qDec_of_empty (s := t) hk hnone⟩

/-! ## Unspecified codes -/

/-- Settles O56: no encode stored such a code, so it reads as the free value of the slot's tag, which an encode and a
release take from the counter. -/
theorem unspecifiedCodesAreFree : Obligations.UnspecifiedCodesAreFree := by
  unfold Obligations.UnspecifiedCodesAreFree
  refine ⟨fun s k hv => code_free_of_not_valid hv, fun s k b hb hwf i hi => ?live, fun s k kind hready => ?encode,
    fun s k hk hv => ?release⟩
  case live =>
    obtain ⟨-, -, hlen, -⟩ := hwf
    exact code_beyond_codes i (by rwa [Slot.codes, hb, hlen])
  case encode =>
    refine ⟨_, exec_encodeCmd_of_ready kind hready, fun i hi => ?_⟩
    rw [encoded_slot]
    exact code_beyond_codes i (by rwa [Slot.codes, newBlock_codes_length])
  case release =>
    obtain ⟨b, hb⟩ := (valid_iff _).1 hv
    refine ⟨_, exec_qDestroy_of_live hk hb, fun i => ?_⟩
    rw [code_free_of_not_valid ((not_valid_iff _).2 (block_destroyed k s)), slot_destroyed, if_pos rfl]

end Sys2Proof.Claim
end

section
/-! PROOFS. The block of finite elements (43_block_quantizer.md R181 to R185), and what it depends on
(20_memory.md §4, R75). -/

namespace Sys2Proof.Claim

open Sys2Proof.Machine

/-- Scale and codes of a block of finite elements; nothing is drawn. -/
theorem quantize_of_finite {vs : List Word} (h : vs.all f32IsFinite = true) (c : Config) (kind : BlockKind) (t : Nat) :
    quantize c kind t vs = (blockScale c kind vs, vs.map (elementCode c kind (fp16Decode (blockScale c kind vs)))) := by
  simp [quantize, h]

theorem encodedBlock_of_finite {vs : List Word} (h : vs.all f32IsFinite = true) (c : Config) (kind : BlockKind)
    (t : Nat) (len : Word) :
    encodedBlock c kind t len vs = {
      kind := kind
      blen := len
      scale := blockScale c kind vs
      codes := vs.map fun v => BitVec.ofInt 8 (elementCode c kind (fp16Decode (blockScale c kind vs)) v) } := by
  simp only [encodedBlock, quantize_of_finite h, List.map_map]
  rfl

theorem newBlock_scale_of_finite {s : State} (kind : BlockKind) (h : FiniteInput s) :
    (newBlock kind s).scale = blockScale s.cfg kind (blockValues s s.len.toNat) := by
  rw [newBlock, encodedBlock_of_finite ((all_finite_iff s).2 h)]

theorem newBlock_codes_of_finite {s : State} (kind : BlockKind) (h : FiniteInput s) :
    (newBlock kind s).codes = (List.range s.len.toNat).map fun i =>
      BitVec.ofInt 8 (elementCode s.cfg kind (fp16Decode (newBlock kind s).scale) (s.readIn i)) := by
  rw [newBlock_scale_of_finite kind h, newBlock, encodedBlock_of_finite ((all_finite_iff s).2 h), blockValues,
    List.map_map]
  rfl

/-- Settles O48: the block of finite elements is a function of the configuration, LEN and those elements. -/
theorem encodeDependsOnInputOnly : Obligations.EncodeDependsOnInputOnly := by
  unfold Obligations.EncodeDependsOnInputOnly
  intro s s' k k' kind hready hready' hfin hcfg hlen hin
  have hvalues : blockValues s' s'.len.toNat = blockValues s s.len.toNat := by
    rw [hlen]
    exact List.map_congr_left fun i hi => hin i (List.mem_range.1 hi)
  have hblock : newBlock kind s' = newBlock kind s := by
    have hall := (all_finite_iff s).2 hfin
    rw [newBlock, newBlock, hvalues, hcfg, hlen, encodedBlock_of_finite hall, encodedBlock_of_finite hall]
  refine ⟨_, _, exec_encodeCmd_of_ready kind hready, exec_encodeCmd_of_ready kind hready', ?_, ?_⟩
  · exact congrArg (fun b => zextHalf b.scale) hblock
  · rw [encoded_slot, encoded_slot, hblock]

/-! ## The scale -/

theorem encoded_scale_eq (kind : BlockKind) (k : Fin 16) (s : State) :
    ((encoded kind k s).slot k).scale = (newBlock kind s).scale := by
  rw [encoded_slot]; rfl

/-- The scale is the encoding of a quotient of magnitudes, so it is not negative. -/
theorem blockScale_sign (c : Config) (kind : BlockKind) (vs : List Word) : f16Sign (blockScale c kind vs) = false := by
  rw [blockScale, f32DivNat, f16Sign_fp16Encode, (fl32_fields _ _ _).1]

theorem newBlock_scale_sign {s : State} (kind : BlockKind) (h : FiniteInput s) :
    f16Sign (newBlock kind s).scale = false := by
  rw [newBlock_scale_of_finite kind h]
  exact blockScale_sign _ _ _

theorem toNat_lt_of_f16Sign {h : Half} (hs : f16Sign h = false) : h.toNat < 2 ^ 15 := by
  rw [f16Sign_eq] at hs
  exact Nat.lt_of_not_le (of_decide_eq_false hs)

/-- R181 to R183: the largest magnitude is an element's, and the scale comes from it. -/
theorem newBlock_scale {s : State} {k : Fin 16} (kind : BlockKind) (hready : EncodeReady s k) (h : FiniteInput s) :
    ∃ j < s.len.toNat, (∀ i < s.len.toNat, f32Mag (s.readIn i) ≤ f32Mag (s.readIn j)) ∧
      (newBlock kind s).scale =
        fp16Encode s.cfg.fp16NanFill (fl32 false (f32Mag (s.readIn j)) (codeRange s.cfg kind)) := by
  obtain ⟨-, hl, -⟩ := hready
  have hne : blockValues s s.len.toNat ≠ [] := by
    rw [ne_eq, ← List.length_eq_zero_iff, blockValues_length]
    exact fun h0 => hl (BitVec.eq_of_toNat_eq h0)
  obtain ⟨v, hv, hmax, hscale⟩ := blockScale_spec s.cfg kind hne
  obtain ⟨j, hj, rfl⟩ := blockValues_mem.1 hv
  exact ⟨j, hj, fun i hi => hmax _ (blockValues_mem.2 ⟨i, hi, rfl⟩), (newBlock_scale_of_finite kind h).trans hscale⟩

/-- Settles O45: the scale of the block an encode writes. -/
theorem finiteBlockScale : Obligations.FiniteBlockScale := by
  unfold Obligations.FiniteBlockScale
  intro s k kind _ hready hfin
  obtain ⟨j, hj, hmax, hscale⟩ := newBlock_scale kind hready hfin
  refine ⟨_, exec_encodeCmd_of_ready kind hready, j, hj, hmax, ?_, ?_⟩
  · rw [encoded_scale_eq, hscale]
    cases kind <;> rfl
  · rw [encoded_scale_eq]
    exact toNat_lt_of_f16Sign (newBlock_scale_sign kind hfin)

/-! ## The codes -/

theorem elementCode_range {c : Config} (hc : c.Legal) (kind : BlockKind) (d v : Word) :
    codeLo c kind ≤ elementCode c kind d v ∧ elementCode c kind d v ≤ codeHi c kind := by
  obtain ⟨-, hlo, hhi, -⟩ := code_bounds hc kind
  rw [elementCode]
  split
  · exact ⟨hlo, hhi⟩
  · exact clamp_range _ _ _ (hlo.trans hhi)

/-- R184, R185, R187: an encoded code reads back as the element's code. -/
theorem codeInt_encoded {s : State} {k : Fin 16} (kind : BlockKind) (hc : s.cfg.Legal) (h : FiniteInput s) {i : Nat}
    (hi : i < s.len.toNat) :
    codeInt kind (((encoded kind k s).slot k).code i) =
      elementCode s.cfg kind (fp16Decode (newBlock kind s).scale) (s.readIn i) := by
  obtain ⟨hlo, hhi⟩ := elementCode_range hc kind (fp16Decode (newBlock kind s).scale) (s.readIn i)
  rw [encoded_code_eq (newBlock_codes_of_finite kind h) hi, codeInt_ofInt hc kind _ hlo hhi]

theorem elementCode_of_ne_zero {c : Config} (hc : c.Legal) (kind : BlockKind) {d : Word} (v : Word)
    (hd : f32Mag d ≠ 0) :
    elementCode c kind d v = max (codeLo c kind) (min (roundQ c.qroundTies (f32Div v d)) (codeHi c kind)) := by
  obtain ⟨-, hlo, hhi, -⟩ := code_bounds hc kind
  rw [elementCode, if_neg hd, clampInt_eq _ _ _ (hlo.trans hhi)]

theorem f16Mag_eq_zero_iff (h : Half) : f16Mag h = 0 ↔ f16Exp h = 0 ∧ f16Man h = 0 := by
  rw [f16Mag]
  split
  case isTrue he => simp [he]
  case isFalse he => simp [he]

/-- A scale that is not negative decodes to magnitude 0 only when it is the pattern 0. -/
theorem f32Mag_fp16Decode_eq_zero_iff {h : Half} (hs : f16Sign h = false) : f32Mag (fp16Decode h) = 0 ↔ h = 0 := by
  have hsplit := f16_split h
  rw [hs, Bool.toNat_false] at hsplit
  have hzero : h = 0 ↔ f16Exp h = 0 ∧ f16Man h = 0 := by
    rw [← BitVec.toNat_inj, show (0 : Half).toNat = 0 from rfl]
    omega
  rw [hzero]
  by_cases he : f16Exp h = 31
  · rw [f32Mag_of_exp_ne_zero (by rw [(fp16Decode_top_fields he).1]; decide)]
    have hpos := Nat.two_pow_pos (f32Exp (fp16Decode h) - 1)
    refine iff_of_false (Nat.mul_pos (by omega) hpos).ne' (by omega)
  · rw [fp16Decode_mag he, ← f16Mag_eq_zero_iff, Nat.mul_eq_zero]
    exact or_iff_left (Nat.two_pow_pos 125).ne'

/-- Settles O46: the element's code is 0 with a zero scale, and the clamped rounded quotient otherwise. -/
theorem finiteBlockCodes : Obligations.FiniteBlockCodes := by
  unfold Obligations.FiniteBlockCodes
  intro s k kind hc hready hfin
  refine ⟨_, exec_encodeCmd_of_ready kind hready, fun i hi => ?_⟩
  rw [encoded_scale_eq, codeInt_encoded kind hc hfin hi]
  have hzero := f32Mag_fp16Decode_eq_zero_iff (newBlock_scale_sign kind hfin)
  refine ⟨fun h0 => ?zero, fun hne hkind => ?q8, fun hne hkind => ?q4⟩
  case zero => rw [elementCode, if_pos (hzero.2 h0)]
  case q8 => subst hkind; exact elementCode_of_ne_zero hc .q8 _ (mt hzero.1 hne)
  case q4 => subst hkind; exact elementCode_of_ne_zero hc .q4 _ (mt hzero.1 hne)

end Sys2Proof.Claim
end

section
/-! PROOFS. The reconstructed element (43_block_quantizer.md R190), and a block of zeros (R193). -/

namespace Sys2Proof.Claim

open Sys2Proof.Machine

/-! ## Reconstruction -/

theorem f32IsInf_false_of_finite {d : Word} (h : f32IsFinite d = true) : f32IsInf d = false :=
  Bool.eq_false_iff.2 fun hi => (f32IsFinite_iff d).1 h ((f32IsInf_iff d).1 hi).1

theorem f32IsNan_false_of_finite {d : Word} (h : f32IsFinite d = true) : f32IsNan d = false :=
  (f32IsNan_false_iff d).2 fun hn => (f32IsFinite_iff d).1 h hn.1

theorem reconstruct_of_default {cfg : Config} {h : Half} {c : Int}
    (hd : f32IsNan (fp16Decode h) = true ∨ (f32IsInf (fp16Decode h) = true ∧ c = 0)) :
    reconstruct cfg h c = cfg.defaultNan := by
  rw [reconstruct, if_pos (by simpa using hd)]

theorem reconstruct_of_inf {h : Half} {c : Int} (cfg : Config) (hd : f32IsInf (fp16Decode h) = true) (hc : c ≠ 0) :
    reconstruct cfg h c = f32Pack (decide (c < 0) ^^ f32Sign (fp16Decode h)) 255 0 := by
  have hn : f32IsNan (fp16Decode h) = false :=
    (f32IsNan_false_iff _).2 fun hnan => hnan.2 ((f32IsInf_iff _).1 hd).2
  rw [reconstruct, if_neg (by simp [hn, hc]), f32MulInt, if_pos hd]

theorem reconstruct_of_finite {h : Half} (cfg : Config) (c : Int) (hd : f32IsFinite (fp16Decode h) = true) :
    reconstruct cfg h c =
      fl32 (decide (c < 0) ^^ f32Sign (fp16Decode h)) (c.natAbs * f32Mag (fp16Decode h)) 1 := by
  have hi := f32IsInf_false_of_finite hd
  have hn := f32IsNan_false_of_finite hd
  rw [reconstruct, if_neg (by simp [hn, hi]), f32MulInt, if_neg (by simp [hi])]

/-- A finite float16 pattern decodes to an 11-bit significand times a power of two. -/
theorem fp16Decode_mag_form {h : Half} (hd : f32IsFinite (fp16Decode h) = true) :
    ∃ m j, f32Mag (fp16Decode h) = m * 2 ^ j ∧ m < 2 ^ 11 ∧ j ≤ 154 := by
  obtain ⟨-, hlt, hm⟩ := f16_split h
  have he : f16Exp h ≠ 31 := fun he => (f32IsFinite_iff _).1 hd (fp16Decode_top_fields he).1
  rw [fp16Decode_mag he, f16Mag]
  split
  · exact ⟨f16Man h, 125, rfl, by omega, by decide⟩
  · exact ⟨2 ^ 10 + f16Man h, f16Exp h - 1 + 125, by rw [Nat.pow_add, Nat.mul_assoc], by omega, by omega⟩

/-- The product of a code and a finite decoded scale is not rounded. -/
theorem fl32_product_exact (sg : Bool) {h : Half} {n : Nat} (hn : n ≤ 255)
    (hd : f32IsFinite (fp16Decode h) = true) :
    f32IsFinite (fl32 sg (n * f32Mag (fp16Decode h)) 1) = true ∧
      f32Mag (fl32 sg (n * f32Mag (fp16Decode h)) 1) = n * f32Mag (fp16Decode h) := by
  obtain ⟨m, j, hmag, hm, hj⟩ := fp16Decode_mag_form hd
  have hlt : n * m < 2 ^ 24 := (Nat.mul_le_mul hn (Nat.le_of_lt hm)).trans_lt (by decide)
  rw [hmag, ← Nat.mul_assoc]
  exact fl32_exact sg hlt (by omega)

/-- A signed product from the magnitudes and the exclusive or of the signs. -/
theorem signed_product (c : Int) (neg : Bool) (n : Nat) :
    (if (decide (c < 0) ^^ neg) = true then -((c.natAbs * n : Nat) : Int) else ((c.natAbs * n : Nat) : Int)) =
      c * (if neg = true then -(n : Int) else n) := by
  by_cases hc : c < 0
  · have habs : (c.natAbs : Int) = -c := by omega
    cases neg <;> simp [hc, habs]
  · have habs : (c.natAbs : Int) = c := by omega
    cases neg <;> simp [hc, habs]

/-- R190 for a finite scale. -/
theorem reconstruct_exact (cfg : Config) {h : Half} {c : Int} (hc : c.natAbs ≤ 255)
    (hd : f32IsFinite (fp16Decode h) = true) :
    f32IsFinite (reconstruct cfg h c) = true ∧ f32Val (reconstruct cfg h c) = c * f32Val (fp16Decode h) ∧
      f32Sign (reconstruct cfg h c) = (decide (c < 0) ^^ f32Sign (fp16Decode h)) := by
  rw [reconstruct_of_finite cfg c hd]
  have hsign := (fl32_fields (decide (c < 0) ^^ f32Sign (fp16Decode h)) (c.natAbs * f32Mag (fp16Decode h)) 1).1
  obtain ⟨hfin, hmag⟩ := fl32_product_exact (decide (c < 0) ^^ f32Sign (fp16Decode h)) hc hd
  refine ⟨hfin, ?_, hsign⟩
  rw [f32Val, hsign, hmag, signed_product, f32Val]

/-- Settles O50: the three cases of the scale. -/
theorem reconstructIsExactProduct : Obligations.ReconstructIsExactProduct := by
  unfold Obligations.ReconstructIsExactProduct
  intro cfg h c hlo hhi d r
  refine ⟨reconstruct_of_default, fun hinf hc => ?inf, reconstruct_exact cfg (by omega)⟩
  case inf =>
    have hr : r = f32Pack (decide (c < 0) ^^ f32Sign d) 255 0 := reconstruct_of_inf cfg hinf hc
    obtain ⟨hs, he, hm⟩ := f32Pack_fields (s := decide (c < 0) ^^ f32Sign d) (e := 255) (m := 0) (by decide) (by decide)
    rw [hr]
    exact ⟨(f32IsInf_iff _).2 ⟨he, hm⟩, hs⟩

/-! ## Decode after encode -/

theorem exec_qDec_encoded {s : State} {k : Fin 16} (kind : BlockKind) (h : EncodeReady s k) :
    exec (.qDec k) (encoded kind k s) = .next (decoded k (newBlock kind s) (encoded kind k s)) := by
  obtain ⟨hk, -⟩ := h
  exact exec_qDec_of_live (s := encoded kind k s) hk (by rw [encoded_slot])

/-- An element of OUT after encode and decode of a block of finite elements (R191). -/
theorem readOut_decoded_encoded {s : State} (k : Fin 16) (kind : BlockKind) (hc : s.cfg.Legal) (h : FiniteInput s)
    {i : Nat} (hi : i < s.len.toNat) :
    (decoded k (newBlock kind s) (encoded kind k s)).readOut i = reconstruct s.cfg (newBlock kind s).scale
      (elementCode s.cfg kind (fp16Decode (newBlock kind s).scale) (s.readIn i)) := by
  rw [← codeInt_encoded (k := k) kind hc h hi, readOut_decoded]
  exact if_pos hi

/-! ## A block of zeros -/

/-- A quotient of 0 is the pattern 0. -/
theorem fl32_zero (den : Nat) : fl32 false 0 den = 0 := by
  have hmag : fl32Mag 0 den = 0 := by simp [fl32Mag, ulpShift, roundNearestEven]
  rw [fl32, hmag]
  rfl

theorem f32Mag_of_zero {v : Word} (h : v = 0x00000000 ∨ v = 0x80000000) : f32Mag v = 0 := by
  obtain rfl | rfl := h <;> rfl

theorem f32IsFinite_of_zero {v : Word} (h : v = 0x00000000 ∨ v = 0x80000000) : f32IsFinite v = true := by
  obtain rfl | rfl := h <;> rfl

theorem fp16Encode_of_zero (fill : BitVec 10) : fp16Encode fill 0 = 0 := fp16Encode_zero fill 0 (by decide)

/-- The only byte that stands for code 0 is 0, in either kind. -/
theorem eq_zero_of_codeInt {kind : BlockKind} {x : Byte} (h : codeInt kind x = 0) : x = 0 := by
  cases kind with
  | q8 => exact BitVec.eq_of_toInt_eq h
  | q4 => exact BitVec.eq_of_toNat_eq (Int.ofNat.inj h)

theorem reconstruct_zero (cfg : Config) : reconstruct cfg 0 0 = 0 := by
  rw [reconstruct_of_finite cfg 0 (by decide), Int.natAbs_zero, Nat.zero_mul]
  exact fl32_zero 1

/-- Settles O53: the largest magnitude is 0, so the scale is 0, so are the codes, and so are their products. -/
theorem zeroBlockIsSafe : Obligations.ZeroBlockIsSafe := by
  unfold Obligations.ZeroBlockIsSafe
  intro s k kind hc hready hzero
  have hfin : FiniteInput s := fun i hi => f32IsFinite_of_zero (hzero i hi)
  have hscale : (newBlock kind s).scale = 0 := by
    obtain ⟨j, hj, -, hscale⟩ := newBlock_scale kind hready hfin
    rw [hscale, f32Mag_of_zero (hzero j hj), fl32_zero, fp16Encode_of_zero]
  have hcode : ∀ i, elementCode s.cfg kind (fp16Decode (newBlock kind s).scale) (s.readIn i) = 0 := fun i => by
    rw [hscale]; rfl
  refine ⟨_, _, exec_encodeCmd_of_ready kind hready, rfl, (encoded_scale_eq kind k s).trans hscale, fun i hi => ?_,
    exec_qDec_encoded kind hready, rfl, fun i hi => ?_⟩
  · exact eq_zero_of_codeInt ((codeInt_encoded kind hc hfin hi).trans (hcode i))
  · rw [readOut_decoded_encoded k kind hc hfin hi, hcode, hscale, reconstruct_zero]

end Sys2Proof.Claim
end

section
/-! PROOFS. The quantization error bound, and where no clamp bites (43_block_quantizer.md R194): the errors of the two
binary32 roundings, of the integer rounding and of the float16 truncation, put together. -/

namespace Sys2Proof.Claim

open Sys2Proof.Machine

/-! ## The quotient -/

/-- The error of a binary32 quotient: with the lowest last place it is a small number, and otherwise the error is at
most 2^-24 of it. -/
theorem fl32_error (sg : Bool) (num : Nat) {den : Nat} (hd : 0 < den) (hfin : f32IsFinite (fl32 sg num den) = true) :
    (f32Mag (fl32 sg num den) ≤ 2 ^ 24 ∧ num < 2 ^ 24 * den) ∨
      2 ^ 24 * gap (f32Mag (fl32 sg num den) * den) num ≤ num := by
  obtain ⟨hlt, hlow⟩ := ulpShift_spec num hd
  obtain ⟨hle, -⟩ := significand_spec num hd
  have hspec := roundNearestEven_spec (num := num) (den := den * 2 ^ ulpShift num den) (by positivity)
  obtain ⟨hup, hdown, -⟩ := hspec
  rw [(fl32_mag sg num hd hfin).1]
  generalize ulpShift num den = k at *
  generalize roundNearestEven num (den * 2 ^ k) = r at *
  by_cases hk : k = 0
  · subst hk
    exact .inl ⟨by omega, by omega⟩
  · have hbig := hlow hk
    have hlast : r * 2 ^ k * den = r * (den * 2 ^ k) := by ring
    rw [hlast]
    unfold gap
    right
    omega

/-- Below the overflow threshold the result is finite (R19). -/
theorem fl32_isFinite_iff_lt (sg : Bool) (num : Nat) {den : Nat} (hd : 0 < den) :
    f32IsFinite (fl32 sg num den) = true ↔ num < (2 ^ 25 - 1) * (den * 2 ^ 252) := by
  have hn := (f32IsNan_false_iff _).1 (fl32_notNan sg num den)
  rw [← Nat.not_le, ← fl32_isInf_iff_le sg num hd, f32IsFinite_iff, f32IsInf_iff]
  omega

theorem f32Div_of_finite {d : Word} (v : Word) (hd : f32IsFinite d = true) :
    f32Div v d = fl32 (f32Sign v ^^ f32Sign d) (f32Mag v * 2 ^ 149) (f32Mag d) := by
  rw [f32Div, if_neg (by simp [f32IsInf_false_of_finite hd])]

theorem f32Sign_f32Div {d : Word} (v : Word) (hd : f32IsFinite d = true) :
    f32Sign (f32Div v d) = (f32Sign v ^^ f32Sign d) := by
  rw [f32Div_of_finite v hd, (fl32_fields _ _ _).1]

theorem f32Div_error (v : Word) {d : Word} (hd : f32IsFinite d = true) (hd0 : 0 < f32Mag d)
    (hq : f32IsFinite (f32Div v d) = true) :
    (f32Mag (f32Div v d) ≤ 2 ^ 24 ∧ f32Mag v * 2 ^ 149 < 2 ^ 24 * f32Mag d) ∨
      2 ^ 24 * gap (f32Mag (f32Div v d) * f32Mag d) (f32Mag v * 2 ^ 149) ≤ f32Mag v * 2 ^ 149 := by
  rw [f32Div_of_finite v hd] at *
  exact fl32_error _ _ hd0 hq

/-- Magnitudes far below one half round to 0. -/
theorem roundMag_of_small (ties : Ties) {m : Nat} (h : m ≤ 2 ^ 24) : roundMag ties m = 0 := by
  obtain ⟨hhalf, -⟩ := roundMag_spec ties m
  unfold gap at hhalf
  omega

/-- A rounded quotient in the range of a byte comes from a finite quotient. -/
theorem f32IsFinite_of_roundMag_le {ties : Ties} {q : Word} (h : roundMag ties (f32Mag q) ≤ 255) :
    f32IsFinite q = true := by
  obtain ⟨hhalf, -⟩ := roundMag_spec ties (f32Mag q)
  unfold gap at hhalf
  rw [f32IsFinite_iff]
  intro he
  have := le_f32Mag_of_le_exp (b := q) (e := 200) (by omega) (by decide)
  omega

/-! ## The error bound -/

theorem gap_mul_right (a b n : Nat) : gap (a * n) (b * n) = gap a b * n := by
  rw [gap, gap, Nat.cast_mul, Nat.cast_mul, ← Int.sub_mul, Int.natAbs_mul, Int.natAbs_natCast]

/-- The bound of R194 on magnitudes. -/
theorem rounded_quotient_error (ties : Ties) (v : Word) {d : Word} (hd : f32IsFinite d = true) (hd0 : 0 < f32Mag d)
    (hq : f32IsFinite (f32Div v d) = true) :
    2 ^ 25 * gap (roundMag ties (f32Mag (f32Div v d)) * f32Mag d) (f32Mag v) ≤ 2 ^ 24 * f32Mag d + 2 * f32Mag v := by
  obtain ⟨hsmall, hlt⟩ | herr := f32Div_error v hd hd0 hq
  · rw [roundMag_of_small ties hsmall, Nat.zero_mul]
    unfold gap
    omega
  · obtain ⟨hhalf, -⟩ := roundMag_spec ties (f32Mag (f32Div v d))
    generalize f32Mag (f32Div v d) = q at *
    generalize roundMag ties q = c at *
    have hhalf' : 2 * gap (q * f32Mag d) (c * f32Mag d * 2 ^ 149) ≤ 2 ^ 149 * f32Mag d := by
      rw [Nat.mul_right_comm c, gap_mul_right, ← Nat.mul_assoc]
      exact Nat.mul_le_mul_right _ hhalf
    generalize q * f32Mag d = qd at *
    generalize c * f32Mag d = cd at *
    unfold gap at *
    omega

theorem roundQ_sub (ties : Ties) (v : Word) {d : Word} (hd : f32IsFinite d = true) (hs : f32Sign d = false) :
    (roundQ ties (f32Div v d) * f32Val d - f32Val v).natAbs =
      gap (roundMag ties (f32Mag (f32Div v d)) * f32Mag d) (f32Mag v) := by
  rw [roundQ, f32Sign_f32Div v hd, hs, f32Val, f32Val, hs, Bool.xor_false, gap, Nat.cast_mul]
  generalize ((roundMag ties (f32Mag (f32Div v d)) : Nat) : Int) = c
  cases f32Sign v <;> simp only [if_true, if_false, Bool.false_eq_true, Int.neg_mul]
  omega

/-- Settles O54: without a clamp the code is the rounded quotient, its product with the scale is exact, and the error
is that of the rounded quotient. -/
theorem quantizationErrorBound : Obligations.QuantizationErrorBound := by
  unfold Obligations.QuantizationErrorBound
  intro s k kind hc hready hfin
  refine ⟨_, _, exec_encodeCmd_of_ready kind hready, exec_qDec_encoded kind hready, rfl, ?_⟩
  rw [encoded_scale_eq]
  intro d hd hd0 i hi c hlo hhi
  have hs : f32Sign d = false := (f32Sign_fp16Decode _).trans (newBlock_scale_sign kind hfin)
  have hcode : elementCode s.cfg kind d (s.readIn i) = c := by
    rw [elementCode_of_ne_zero hc kind _ hd0, min_eq_left hhi, max_eq_right hlo]
  have habs : c.natAbs ≤ 255 := by
    obtain ⟨hlo', -, -, hhi', -⟩ := code_bounds hc kind
    cases kind <;> simp only at hhi' <;> omega
  have hq : f32IsFinite (f32Div (s.readIn i) d) = true :=
    f32IsFinite_of_roundMag_le ((roundQ_natAbs _ _).symm.trans_le habs)
  obtain ⟨hfinite, hval, -⟩ := reconstruct_exact s.cfg habs hd
  rw [readOut_decoded_encoded k kind hc hfin hi, hcode]
  refine ⟨hfinite, ?_⟩
  rw [hval, roundQ_sub _ _ hd hs]
  exact rounded_quotient_error _ _ hd (Nat.pos_of_ne_zero hd0) hq

/-! ## Where no clamp bites -/

/-- A pattern from 0x0400 to 0x7BFF is a positive normal. -/
theorem f16Exp_of_normal {h : Half} (hlo : 0x0400 ≤ h.toNat) (hhi : h.toNat ≤ 0x7BFF) :
    f16Exp h ≠ 0 ∧ f16Exp h ≠ 31 := by
  rw [f16Exp_eq]
  omega

/-- The exponent of a pattern whose float16 encoding is a normal (R151 to R155). -/
theorem f32Exp_of_encoded_normal {fill : BitVec 10} {b : Word} (hn : f32IsNan b = false)
    (h0 : f16Exp (fp16Encode fill b) ≠ 0) (h31 : f16Exp (fp16Encode fill b) ≠ 31) :
    113 ≤ f32Exp b ∧ f32Exp b ≤ 142 := by
  constructor
  · by_contra hc
    by_cases h102 : f32Exp b ≤ 102
    · exact h0 (fp16Encode_fields_tiny fill h102).1
    · exact h0 (fp16Encode_fields_subnormal fill (by omega) (by omega)).1
  · by_contra hc
    refine h31 (fp16Encode_fields_inf fill (by omega) fun he => ?_).1
    by_contra hm
    exact (f32IsNan_false_iff b).1 hn ⟨he, hm⟩

/-- Truncation to a float16 normal loses less than 2^-10 of what is left. -/
theorem f32Mag_le_of_encoded_normal {fill : BitVec 10} {b : Word} (hn : f32IsNan b = false)
    (h0 : f16Exp (fp16Encode fill b) ≠ 0) (h31 : f16Exp (fp16Encode fill b) ≠ 31) :
    2 ^ 10 * f32Mag b ≤ (2 ^ 10 + 1) * f32Mag (fp16Decode (fp16Encode fill b)) := by
  obtain ⟨hlo, hhi⟩ := f32Exp_of_encoded_normal hn h0 h31
  obtain ⟨-, -, hlt⟩ := fp16Encode_truncates_normal fill hlo hhi
  have hge : 2 ^ 10 * 2 ^ (f16Exp (fp16Encode fill b) - 1) ≤ f16Mag (fp16Encode fill b) := by
    rw [f16Mag, if_neg h0]
    exact Nat.mul_le_mul_right _ (Nat.le_add_right _ _)
  rw [fp16Decode_mag h31]
  generalize 2 ^ (f16Exp (fp16Encode fill b) - 1) = p at *
  omega

/-- With a float16-normal scale every element of the block is at most little more than code_range times the decoded
scale. -/
theorem f32Mag_le_of_normal_scale {fill : BitVec 10} {m r : Nat} (hr : 0 < r)
    (h0 : f16Exp (fp16Encode fill (fl32 false m r)) ≠ 0) (h31 : f16Exp (fp16Encode fill (fl32 false m r)) ≠ 31) :
    2 ^ 10 * (2 ^ 24 - 1) * m ≤
      2 ^ 24 * (2 ^ 10 + 1) * (r * f32Mag (fp16Decode (fp16Encode fill (fl32 false m r)))) := by
  have hn := fl32_notNan false m r
  obtain ⟨hlo, hhi⟩ := f32Exp_of_encoded_normal hn h0 h31
  have htrunc := Nat.mul_le_mul_left r (f32Mag_le_of_encoded_normal hn h0 h31)
  rw [Nat.mul_left_comm, Nat.mul_left_comm r, Nat.mul_comm r (f32Mag (fl32 false m r))] at htrunc
  have hbig := le_f32Mag_of_le_exp hlo (by decide)
  obtain ⟨hsmall, -⟩ | herr := fl32_error false m hr ((f32IsFinite_iff _).2 (by omega))
  · omega
  · unfold gap at herr
    omega

/-- Then the quotient of an element no larger rounds to at most code_range. -/
theorem roundMag_f32Div_le (ties : Ties) {v d : Word} {r : Nat} (hr : r ≤ 255) (hd : f32IsFinite d = true)
    (hd0 : 0 < f32Mag d) (hv : 2 ^ 10 * (2 ^ 24 - 1) * f32Mag v ≤ 2 ^ 24 * (2 ^ 10 + 1) * (r * f32Mag d)) :
    roundMag ties (f32Mag (f32Div v d)) ≤ r := by
  have hrd : r * f32Mag d ≤ 255 * f32Mag d := Nat.mul_le_mul_right _ hr
  have hq : f32IsFinite (f32Div v d) = true := by
    rw [f32Div_of_finite v hd, fl32_isFinite_iff_lt _ _ hd0]
    omega
  obtain ⟨hsmall, -⟩ | herr := f32Div_error v hd hd0 hq
  · rw [roundMag_of_small ties hsmall]
    exact Nat.zero_le r
  · have hlt : 2 * f32Mag (f32Div v d) < (2 * r + 1) * 2 ^ 149 := by
      by_contra hc
      have hscaled := Nat.mul_le_mul_right (f32Mag d) (Nat.le_of_not_lt hc)
      rw [Nat.mul_right_comm, Nat.add_mul, Nat.mul_assoc 2, Nat.mul_assoc 2] at hscaled
      unfold gap at herr
      omega
    obtain ⟨hhalf, -⟩ := roundMag_spec ties (f32Mag (f32Div v d))
    unfold gap at hhalf
    omega

/-- Settles O55: the scale bounds the largest element, the quotient of no element rounds above code_range, and the
lowest Q8 code is not above -127. -/
theorem normalScaleNeverClamps : Obligations.NormalScaleNeverClamps := by
  unfold Obligations.NormalScaleNeverClamps
  intro s k kind hc hready hfin
  refine ⟨_, exec_encodeCmd_of_ready kind hready, ?_⟩
  rw [encoded_scale_eq]
  intro hlo hhi i hi hkind c
  obtain ⟨h0, h31⟩ := f16Exp_of_normal hlo hhi
  obtain ⟨hr15, hr255, hcodeHi, hq8⟩ := codeRange_bounds hc kind
  obtain ⟨-, hcodeLo, -⟩ := code_bounds hc kind
  have hd := fp16Decode_isFinite h31
  have hd0 : 0 < f32Mag (fp16Decode (newBlock kind s).scale) := by
    rw [fp16Decode_mag h31]
    exact Nat.mul_pos (Nat.pos_of_ne_zero fun hm => h0 ((f16Mag_eq_zero_iff _).1 hm).1) (Nat.two_pow_pos _)
  have hmag : roundMag s.cfg.qroundTies (f32Mag (f32Div (s.readIn i) (fp16Decode (newBlock kind s).scale))) ≤
      codeRange s.cfg kind := by
    refine roundMag_f32Div_le _ hr255 hd hd0 ?_
    obtain ⟨j, -, hmax, hscale⟩ := newBlock_scale kind hready hfin
    rw [hscale] at h0 h31 ⊢
    exact (Nat.mul_le_mul_left _ (hmax i hi)).trans (f32Mag_le_of_normal_scale (by omega) h0 h31)
  have habs : c.natAbs ≤ codeRange s.cfg kind := (roundQ_natAbs _ _).trans_le hmag
  obtain hkind | hpos := hkind
  · obtain ⟨hlo8, hr⟩ := hq8 hkind
    omega
  · have hnonneg : 0 ≤ c := by
      have hs : f32Sign (f32Div (s.readIn i) (fp16Decode (newBlock kind s).scale)) = false := by
        rw [f32Sign_f32Div _ hd, hpos, f32Sign_fp16Decode, newBlock_scale_sign kind hfin]
        rfl
      show 0 ≤ roundQ _ _
      rw [roundQ, hs]
      exact Int.natCast_nonneg _
    omega

end Sys2Proof.Claim
end
